-- ==== Sys2Proof/Word.lean ====
section
/-! DEFINITION. The word types of the core (00_scope.md R7, R8, R13, R14): bytes, bus words, word indexes, the fields
of a command word, and the Block and schedule types. -/

namespace Sys2Proof

/-- An unsigned 8-bit value (R13). -/
abbrev Byte := BitVec 8

/-- A 32-bit word of the host bus (R8, 20_memory.md R50). -/
abbrev Word := BitVec 32

/-- The 10-bit word index of a bus access (20_memory.md R51). -/
abbrev Widx := BitVec 10

/-- The OP field of a command word (30_encoding.md R80). -/
abbrev Opcode := BitVec 8

/-- The ARG field of a command word, an unsigned 4-bit operand (30_encoding.md R80, R82). -/
abbrev Arg := BitVec 4

/-- A word in the key schedule's sense: 4 consecutive bytes, `b0` first (41_key_schedule.md R120). -/
abbrev Quad := Vector Byte 4

/-- A Block: a sequence of 16 bytes, column-major as a 4 by 4 matrix (00_scope.md R14). -/
abbrev Block := Vector Byte 16

/-- The RoundKeySchedule: exactly 10 Blocks (00_scope.md R7). -/
abbrev Schedule := Vector Block 10

end Sys2Proof
end

