-- ==== Sys2Proof/Machine/State.lean ====
section
/-! DEFINITION. The state of one core (10_state.md R20), the codes of its rejections (60_exceptions.md R172), the
inputs of a run (20_memory.md R70), and why a step can stop. -/

namespace Sys2Proof.Machine

/-- The accepted command that the Engine has not performed yet (10_state.md R20, R35). -/
structure Pending where
  op : Opcode
  arg : Arg
  deriving DecidableEq, Repr

/-- Why a host write was rejected (60_exceptions.md R172). `ErrCode.code` of Flags.lean gives the number. -/
inductive ErrCode where
  /-- A write to CMD, KEYc or DATAc while BUSY = 1. -/
  | busy
  /-- An illegal command word. -/
  | illegal
  /-- A command that needs the key while KEYV != 0b1111. -/
  | keyLength
  /-- A command that needs DATA while DATAV != 0b1111. -/
  | dataLength
  /-- A command that needs RK[r] while RKV[r] = 0. -/
  | schedule
  /-- A write to a read-only or reserved offset. -/
  | addr
  deriving DecidableEq, Repr

/-- One access of the host bus (20_memory.md R50). -/
inductive Access where
  /-- `MemRead(4*widx, 4)`. -/
  | read (widx : Widx)
  /-- `MemWrite(4*widx, 4, v)`. -/
  | write (widx : Widx) (v : Word)
  deriving DecidableEq, Repr

/-- One step of a run, named by the agent that takes it (00_scope.md R10; 20_memory.md R70). -/
inductive Turn where
  /-- A host access. -/
  | host (a : Access)
  /-- The Engine step, if a command is pending. -/
  | engine
  /-- The external reset. -/
  | reset
  deriving DecidableEq, Repr

/-- What a host read returned: the word index and the 32 bits (20_memory.md R55). -/
structure BusReturn where
  widx : Widx
  value : Word
  deriving DecidableEq, Repr

/-- The state of one core instance (10_state.md R20) and, in the last four fields, the model's own plain data for
what is outside the core (10_state.md R38). -/
structure State where
  /-- KEY (R21). -/
  key : Block
  /-- KEYV: which KEY words have been written (R22). -/
  keyv : BitVec 4
  /-- DATA (R23). -/
  data : Block
  /-- DATAV: which DATA words have been written (R24). -/
  datav : BitVec 4
  /-- RK[0..9] (R25). -/
  rk : Schedule
  /-- RKV: which schedule entries belong to the current KEY (R26). -/
  rkv : BitVec 10
  /-- BUSY (R30). -/
  busy : Bool
  /-- DONE (R31). -/
  done : Bool
  /-- ERR (R32). -/
  err : Bool
  /-- ERRCODE (R32; 60_exceptions.md R172). -/
  errcode : BitVec 4
  /-- PEND (R35). -/
  pend : Option Pending
  /-- MODEL'S OWN: the turns still to come, first one first (log 1). DESIGN CHOICE. -/
  turns : List Turn
  /-- MODEL'S OWN: what host reads returned, latest first (log 5). DESIGN CHOICE. -/
  reads : List BusReturn
  /-- MODEL'S OWN: how many free values have been drawn (log 4). DESIGN CHOICE. -/
  draws : Nat
  /-- MODEL'S OWN: which core of its platform this is, the position in the list Platform; no step changes it (log 4,
  log 14). DESIGN CHOICE. -/
  number : Nat
  deriving DecidableEq, Repr

/-- Why the machine can stop with a fault. -/
inductive Fault where
  /-- Raised by the Engine, and by a meaning given an operand outside its range: an (op, arg) pair that names no
  command. The spec says none reaches PEND (30_encoding.md R88). Safe: the hardware never gets here (log 8). -/
  | notACommand
  deriving DecidableEq, Repr

/-- Why the machine can refuse. -/
inductive Refusal where
  /-- Raised by the dispatch for an instruction that has no meaning in the model. Safe. No arm raises it. -/
  | notModelled (mnemonic : String)
  deriving DecidableEq, Repr

/-- The outcome of one step of this core. -/
abbrev Result := Host.Outcome State Fault Refusal

/-- The Block of 16 bytes 0x00. -/
def zeroBlock : Block := Vector.replicate 16 0x00

/-- The state right after reset (70_reset_and_hazards.md R200); the model's own fields start empty and at 0
(log 1, log 4, log 5, log 14). -/
def State.reset : State where
  key := zeroBlock
  keyv := 0b0000
  data := zeroBlock
  datav := 0b0000
  rk := Vector.replicate 10 zeroBlock
  rkv := 0b0000000000
  busy := false
  done := false
  err := false
  errcode := 0
  pend := none
  turns := []
  reads := []
  draws := 0
  number := 0

end Sys2Proof.Machine
end

