-- ==== Sys2Proof/Config.lean ====
section
/-! DEFINITION. What an implementation fixes and the values the spec leaves free. None of them has a body, so no
proof can see what it is. -/

namespace Sys2Proof

/-- CORE_BASE of each core of a platform, by its number: the base address of its own window in the platform's address
space, an open parameter (20_memory.md R51; 60_exceptions.md R185; 93_implementation_defined.md I4; log 10). -/
opaque Config.coreBase : Nat → Nat

/-- `draw_32`: the unconstrained 32-bit value that a read of DATA or of the RK window at a word index returns while
BUSY = 1 (20_memory.md R55, R62; 93_implementation_defined.md I1). It may depend on everything in the state of the core
that is read (`busyView` of Machine/Bus.lean), among it the core's number and the number of the draw, so no two reads
need agree (log 4). -/
opaque Config.drawWord : Machine.State → Widx → Word

/-- `draw_10`: the unconstrained value of VALID[17:8] in a read while BUSY = 1, which may depend on as much (20_memory.md
R55, R62; 93_implementation_defined.md I1; log 4). -/
opaque Config.drawEntries : Machine.State → BitVec 10

end Sys2Proof
end

