-- ==== Sys2Proof/Syntax.lean ====
section
/-! DEFINITION. The commands of the core, one constructor per row of spec/opcode_table.json (30_encoding.md R81). An
operand is the 4-bit ARG field, whose range Sys2Proof/WellFormed.lean checks. -/

namespace Sys2Proof

/-- The eight commands (30_encoding.md R81). -/
inductive Instr where
  /-- EXPAND_KEY, OP 0x01 (41_key_schedule.md R126). -/
  | expandKey
  /-- ENCRYPT, OP 0x02 (42_cipher_engine.md R150). -/
  | encrypt
  /-- KEY_ROUND r, OP 0x03, r = 0..9 (41_key_schedule.md R127). -/
  | keyRound (r : Arg)
  /-- ADD_ROUND_KEY k, OP 0x04, k = 0..10 (42_cipher_engine.md R151). -/
  | addRoundKey (k : Arg)
  /-- SUB_BYTES, OP 0x05 (42_cipher_engine.md R152). -/
  | subBytes
  /-- SHIFT_ROWS, OP 0x06 (42_cipher_engine.md R153). -/
  | shiftRows
  /-- MIX_COLUMNS, OP 0x07 (42_cipher_engine.md R154). -/
  | mixColumns
  /-- ROUND j, OP 0x08, j = 1..10 (42_cipher_engine.md R155). -/
  | round (j : Arg)
  deriving DecidableEq, Repr

end Sys2Proof
end

