-- ==== Sys2Proof/WellFormed.lean ====
section
/-! DEFINITION. Which commands are well formed: the operand ranges of 30_encoding.md R81 to R83. -/

namespace Sys2Proof

/-- The operand of `i` is in the range its command allows (30_encoding.md R83: ARG > 9 is illegal for KEY_ROUND,
ARG > 10 for ADD_ROUND_KEY, ARG = 0 or ARG > 10 for ROUND). -/
def Instr.wf (i : Instr) : Bool :=
  match i with
  | .expandKey => true
  | .encrypt => true
  | .keyRound r => decide (r.toNat ≤ 9)
  | .addRoundKey k => decide (k.toNat ≤ 10)
  | .subBytes => true
  | .shiftRows => true
  | .mixColumns => true
  | .round j => decide (1 ≤ j.toNat ∧ j.toNat ≤ 10)

end Sys2Proof
end

