-- ==== Sys2Proof/Decode.lean ====
section
/-! DEFINITION. Decoding and encoding of command words (30_encoding.md R80 to R83, R89). A command is one 32-bit word
written to CMD, so the unit of decoding is the bus word (log 18). -/

namespace Sys2Proof

/-- Why a command word is illegal; all of them are reported by the one code ILLEGAL (30_encoding.md R83, R85). -/
inductive DecodeError where
  /-- `v[31:12] != 0`. -/
  | reservedBits
  /-- OP is 0x00 or one of 0x09..0xFF. -/
  | noSuchOpcode
  /-- ARG != 0 for a command that has no operand. -/
  | operandNotZero
  /-- ARG is outside the range of KEY_ROUND, ADD_ROUND_KEY or ROUND. -/
  | operandRange
  deriving DecidableEq, Repr

/-- OP, bits [7:0] of a command word (R80). -/
def opOf (v : Word) : Opcode := v.extractLsb' 0 8

/-- ARG, bits [11:8] of a command word (R80, R82). -/
def argOf (v : Word) : Arg := v.extractLsb' 8 4

/-- RSV, bits [31:12] of a command word (R80). -/
def rsvOf (v : Word) : BitVec 20 := v.extractLsb' 12 20

/-- A command without operand: ARG must be 0 (R82, R83). -/
def decodePlain (arg : Arg) (i : Instr) : Except DecodeError Instr :=
  if arg = 0 then .ok i else .error .operandNotZero

/-- A command with operand: ARG must be in its range (R83). -/
def decodeRanged (i : Instr) : Except DecodeError Instr :=
  if i.wf then .ok i else .error .operandRange

/-- The command that a pair (OP, ARG) names, by the opcode map of R81. -/
def decodeFields (op : Opcode) (arg : Arg) : Except DecodeError Instr :=
  match op.toNat with
  | 0x01 => decodePlain arg .expandKey
  | 0x02 => decodePlain arg .encrypt
  | 0x03 => decodeRanged (.keyRound arg)
  | 0x04 => decodeRanged (.addRoundKey arg)
  | 0x05 => decodePlain arg .subBytes
  | 0x06 => decodePlain arg .shiftRows
  | 0x07 => decodePlain arg .mixColumns
  | 0x08 => decodeRanged (.round arg)
  | _ => .error .noSuchOpcode

/-- The command that a word names, or why the word is illegal (R83: every 32-bit word is one of the two). -/
def decode (v : Word) : Except DecodeError Instr :=
  if rsvOf v ≠ 0 then .error .reservedBits else decodeFields (opOf v) (argOf v)

/-- The OP of a command (R81). -/
def Instr.opcode (i : Instr) : Opcode :=
  match i with
  | .expandKey => 0x01
  | .encrypt => 0x02
  | .keyRound _ => 0x03
  | .addRoundKey _ => 0x04
  | .subBytes => 0x05
  | .shiftRows => 0x06
  | .mixColumns => 0x07
  | .round _ => 0x08

/-- The ARG of a command: its operand, or 0 (R81, R82). -/
def Instr.operand (i : Instr) : Arg :=
  match i with
  | .expandKey => 0
  | .encrypt => 0
  | .keyRound r => r
  | .addRoundKey k => k
  | .subBytes => 0
  | .shiftRows => 0
  | .mixColumns => 0
  | .round j => j

/-- The word with the fields OP and ARG and RSV = 0: `{RSV, ARG, OP}` (R80). -/
def commandWord (op : Opcode) (arg : Arg) : Word := (0#20 ++ arg ++ op : BitVec (20 + 4 + 8))

/-- The command word of `i` (R80, R81). -/
def encode (i : Instr) : Word := commandWord i.opcode i.operand

/-- The bits of a command word that spec/opcode_table.json fixes: `mask` says which, `pattern` their values. -/
structure TableRow where
  pattern : Word
  mask : Word
  deriving DecidableEq, Repr

/-- The row of spec/opcode_table.json that a command belongs to, as the table writes it. -/
def Instr.row (i : Instr) : TableRow :=
  match i with
  | .expandKey => ⟨0x00000001, 0xFFFFFFFF⟩
  | .encrypt => ⟨0x00000002, 0xFFFFFFFF⟩
  | .keyRound _ => ⟨0x00000003, 0xFFFFF0FF⟩
  | .addRoundKey _ => ⟨0x00000004, 0xFFFFF0FF⟩
  | .subBytes => ⟨0x00000005, 0xFFFFFFFF⟩
  | .shiftRows => ⟨0x00000006, 0xFFFFFFFF⟩
  | .mixColumns => ⟨0x00000007, 0xFFFFFFFF⟩
  | .round _ => ⟨0x00000008, 0xFFFFF0FF⟩

/-- The host's view of the decoder: the command in an instruction whose low `nbits` bits are those of `w` and whose
other bits are 0. A command is 32 bits long (R80), so a set bit above bit 31 is no command (log 18). -/
def decodeTableWord (nbits w : Nat) : Option Instr :=
  if w % 2 ^ nbits < 2 ^ 32 then (decode (BitVec.ofNat 32 (w % 2 ^ nbits))).toOption else none

end Sys2Proof
end

