-- ==== Sys2Proof/Machine/Flags.lean ====
section
/-! DEFINITION. The status computations: the error codes, the words STATUS and VALID, and the bits of the masks. -/

namespace Sys2Proof.Machine

/-- The number of a rejection code, as read in STATUS[7:4] (60_exceptions.md R172). -/
def ErrCode.code (e : ErrCode) : BitVec 4 :=
  match e with
  | .busy => 1
  | .illegal => 2
  | .keyLength => 3
  | .dataLength => 4
  | .schedule => 5
  | .addr => 6

/-- The rejection that a code names: none for 0 (NONE) and for the codes 7..15, which are never produced
(60_exceptions.md R172; 93_implementation_defined.md I6; log 17). -/
def ErrCode.ofCode (n : BitVec 4) : Option ErrCode :=
  match n.toNat with
  | 1 => some .busy
  | 2 => some .illegal
  | 3 => some .keyLength
  | 4 => some .dataLength
  | 5 => some .schedule
  | 6 => some .addr
  | _ => none

/-- A read of STATUS: `{24'b0, ERRCODE, 1'b0, ERR, DONE, BUSY}` (10_state.md R29). -/
def statusWord (s : State) : Word :=
  (0#24 ++ s.errcode ++ 0#1 ++ BitVec.ofBool s.err ++ BitVec.ofBool s.done ++ BitVec.ofBool s.busy
    : BitVec (24 + 4 + 1 + 1 + 1 + 1))

/-- What a STATUS word says to the host that reads it (10_state.md R29). -/
structure StatusView where
  busy : Bool
  done : Bool
  err : Bool
  code : Option ErrCode
  deriving DecidableEq, Repr

/-- The host's reading of a STATUS word. It refuses a word no core returns: a reserved bit set, or one of the codes
7..15 (93_implementation_defined.md I6, I8). -/
def statusView (v : Word) : Option StatusView :=
  let code := v.extractLsb' 4 4
  if v[3] || decide (v.extractLsb' 8 24 ≠ 0) || decide (7 ≤ code.toNat) then none
  else some ⟨v[0], v[1], v[2], ErrCode.ofCode code⟩

/-- A read of VALID, given what stands in bits [17:8]: `{14'b0, entries, DATAV, KEYV}` (10_state.md R33; 20_memory.md
R55). -/
def validWord (entries : BitVec 10) (s : State) : Word :=
  (0#14 ++ entries ++ s.datav ++ s.keyv : BitVec (14 + 10 + 4 + 4))

/-- What a VALID word says to the host that reads it (10_state.md R33). -/
structure ValidView where
  keyv : BitVec 4
  datav : BitVec 4
  entries : BitVec 10
  deriving DecidableEq, Repr

/-- The host's reading of a VALID word. It refuses a word with a reserved bit set, which no core returns
(93_implementation_defined.md I8). -/
def validView (v : Word) : Option ValidView :=
  if v.extractLsb' 18 14 ≠ 0 then none
  else some ⟨v.extractLsb' 0 4, v.extractLsb' 4 4, v.extractLsb' 8 10⟩

/-- The four words of a 16-byte register have all been written: the mask is 0b1111 (10_state.md R22, R24). -/
def allWritten (mask : BitVec 4) : Bool := mask = 0b1111

/-- A mask of words written, with bit c set (10_state.md R22, R24). -/
def markWord (mask : BitVec 4) (c : Fin 4) : BitVec 4 := mask ||| (1#4 <<< c.val)

/-- `RKV[r] <- 1` (10_state.md R26). -/
def markEntry (rkv : BitVec 10) (r : Fin 10) : BitVec 10 := rkv ||| (1#10 <<< r.val)

end Sys2Proof.Machine
end

