-- ==== Sys2Proof/Machine/Operands.lean ====
section
/-! DEFINITION. How a Block stands in bus words (20_memory.md R53), how it splits into the key schedule's words
(41_key_schedule.md R120), and which Block a round key number names (00_scope.md R18). -/

namespace Sys2Proof.Machine

/-- `Word(B, c)`: byte 4c in bits [31:24] (R53). -/
def blockWord (b : Block) (c : Fin 4) : Word :=
  (b[4 * c.val] ++ b[4 * c.val + 1] ++ b[4 * c.val + 2] ++ b[4 * c.val + 3] : BitVec (8 + 8 + 8 + 8))

/-- `Unpack(v)`: the 4 bytes of a bus word, first byte first (R53). -/
def unpack (v : Word) : Quad :=
  #v[v.extractLsb' 24 8, v.extractLsb' 16 8, v.extractLsb' 8 8, v.extractLsb' 0 8]

/-- `B[4c .. 4c+3] <- Unpack(v)` (R58, R59). -/
def setBlockWord (b : Block) (c : Fin 4) (v : Word) : Block :=
  Vector.ofFn fun i => if i.val / 4 = c.val then (unpack v)[i.val % 4] else b[i]

/-- Word i of a Block in the key schedule's sense (R120). -/
def quadOf (b : Block) (i : Fin 4) : Quad :=
  #v[b[4 * i.val], b[4 * i.val + 1], b[4 * i.val + 2], b[4 * i.val + 3]]

/-- `w4 ++ w5 ++ w6 ++ w7`: four words in order are a Block (R120). -/
def blockOfQuads (w4 w5 w6 w7 : Quad) : Block :=
  #v[w4[0], w4[1], w4[2], w4[3], w5[0], w5[1], w5[2], w5[3],
     w6[0], w6[1], w6[2], w6[3], w7[0], w7[1], w7[2], w7[3]]

/-- Round key number k: KEY for k = 0 and RK[k-1] for k = 1..10 (00_scope.md R18; 30_encoding.md R82). -/
def roundKey (k : Fin 11) (s : State) : Block :=
  if h : k.val = 0 then s.key else s.rk[k.val - 1]

end Sys2Proof.Machine
end

