-- ==== Sys2Proof/Machine/Ops.lean ====
section
/-! DEFINITION. The named operations over the registers. Each is the whole effect of one rule, so that a meaning or
a bus access says which of them it is. -/

namespace Sys2Proof.Machine

/-- THE EXCEPTIONAL EVENT of the core: `Reject(code)` drops a host write and changes ERR and ERRCODE only
(60_exceptions.md R171). It saves no pc and changes no mode, because there is none (R178). -/
def reject (e : ErrCode) (s : State) : State := { s with err := true, errcode := e.code }

/-- The way back from a rejection, and every other write to STATUS: bit 1 clears DONE, bit 2 clears ERR and ERRCODE,
the other bits are ignored (20_memory.md R57; 60_exceptions.md R179). -/
def writeStatus (v : Word) (s : State) : State :=
  { s with
    done := if v[1] then false else s.done
    err := if v[2] then false else s.err
    errcode := if v[2] then 0 else s.errcode }

/-- The acceptance of a command: it changes PEND, BUSY and DONE only (30_encoding.md R86). -/
def accept (p : Pending) (s : State) : State := { s with pend := some p, busy := true, done := false }

/-- The end of every Engine step: `PEND <- none`, `BUSY <- 0`, `DONE <- 1` (30_encoding.md R87). -/
def finish (s : State) : State := { s with pend := none, busy := false, done := true }

/-- The bytes and mask bits of a write to KEYc, and `RKV <- 0` (20_memory.md R58). -/
def storeKey (c : Fin 4) (v : Word) (s : State) : State :=
  { s with key := setBlockWord s.key c v, keyv := markWord s.keyv c, rkv := 0 }

/-- The bytes and the mask bit of a write to DATAc (20_memory.md R59). -/
def storeData (c : Fin 4) (v : Word) (s : State) : State :=
  { s with data := setBlockWord s.data c v, datav := markWord s.datav c }

/-- A write to KEYc: rejected with BUSY while BUSY = 1 (20_memory.md R58). -/
def writeKey (c : Fin 4) (v : Word) (s : State) : State :=
  if s.busy then reject .busy s else storeKey c v s

/-- A write to DATAc: rejected with BUSY while BUSY = 1 (20_memory.md R59). -/
def writeData (c : Fin 4) (v : Word) (s : State) : State :=
  if s.busy then reject .busy s else storeData c v s

/-- The whole 16-byte result of a data-path command goes to DATA at once (42_cipher_engine.md R149). DATAV is
unchanged (10_state.md R24). -/
def setData (b : Block) (s : State) : State := { s with data := b }

/-- `RK[r] <- b`, `RKV[r] <- 1` (41_key_schedule.md R127). -/
def setEntry (r : Fin 10) (b : Block) (s : State) : State :=
  { s with rk := s.rk.set r.val b, rkv := markEntry s.rkv r }

/-- `RK[0..9] <- S`, `RKV <- 0x3FF` (41_key_schedule.md R126). -/
def setSchedule (S : Schedule) (s : State) : State := { s with rk := S, rkv := 0x3FF }

/-- The turns to come are `ts` (a field of the model's own, log 1). -/
def withTurns (ts : List Turn) (s : State) : State := { s with turns := ts }

/-- The reset step: every piece of the hardware's state takes its reset value (70_reset_and_hazards.md R200). The
model's own fields, which stand for what is outside the core, stay as they are (log 13). -/
def resetCore (s : State) : State :=
  { State.reset with turns := s.turns, reads := s.reads, draws := s.draws, number := s.number }

end Sys2Proof.Machine
end

