-- ==== Sys2Proof/Machine/Command.lean ====
section
/-! DEFINITION. What happens when the host writes a word to CMD: the preconditions of each command (30_encoding.md
R84), the check (R85), and the issue of the command (R86). -/

namespace Sys2Proof.Machine

/-- The command needs the key: KEYV = 0b1111 (R84). -/
def needsKey (i : Instr) : Bool :=
  match i with
  | .expandKey => true
  | .encrypt => true
  | .keyRound _ => true
  | .addRoundKey k => decide (k = 0)
  | .subBytes => false
  | .shiftRows => false
  | .mixColumns => false
  | .round _ => false

/-- The command needs the block: DATAV = 0b1111 (R84). -/
def needsData (i : Instr) : Bool :=
  match i with
  | .expandKey => false
  | .encrypt => true
  | .keyRound _ => false
  | .addRoundKey _ => true
  | .subBytes => true
  | .shiftRows => true
  | .mixColumns => true
  | .round _ => true

/-- The entry that a command with the operand `n` needs: RKV bit n - 1, when n >= 1 (R84). -/
def entryBefore (n : Arg) : List Nat := if n = 0 then [] else [n.toNat - 1]

/-- The schedule entries the command needs, by their RKV bit (R84). -/
def needsEntries (i : Instr) : List Nat :=
  match i with
  | .expandKey => []
  | .encrypt => List.range 10
  | .keyRound r => entryBefore r
  | .addRoundKey k => entryBefore k
  | .subBytes => []
  | .shiftRows => []
  | .mixColumns => []
  | .round j => entryBefore j

/-- The first precondition of the command that the state fails, in the order of R85; none if it meets all. -/
def checkState (i : Instr) (s : State) : Option ErrCode :=
  if needsKey i && !allWritten s.keyv then some .keyLength
  else if needsData i && !allWritten s.datav then some .dataLength
  else if (needsEntries i).any fun r => !s.rkv.getLsbD r then some .schedule
  else none

/-- `Check(v)`: none for OK, else the code of the first failing check (R85). -/
def check (v : Word) (s : State) : Option ErrCode :=
  match decode v with
  | .error _ => some .illegal
  | .ok i => checkState i s

/-- `IssueCommand(v)`: the BUSY check first, then `Check`, then the acceptance (R86). -/
def issueCommand (v : Word) (s : State) : State :=
  if s.busy then reject .busy s
  else
    match check v s with
    | some e => reject e s
    | none => accept ⟨opOf v, argOf v⟩ s

end Sys2Proof.Machine
end

