-- ==== Sys2Proof/Machine/Bus.lean ====
section
/-! DEFINITION. The host bus: the address map (20_memory.md R52), reads (R55, R62) and writes (R64, R65). -/

namespace Sys2Proof.Machine

/-- What can stand at a word of the window (R52). -/
inductive Region where
  | id
  | status
  | valid
  | cmd
  | key (c : Fin 4)
  | data (c : Fin 4)
  | rk (r : Fin 10) (c : Fin 4)
  | sbox (v : Byte)
  | rcon (i : Fin 10)
  | reserved
  deriving DecidableEq, Repr

/-- The byte offset of a word index: `off = 4 * widx` (R51). -/
def offsetOf (widx : Widx) : Nat := 4 * widx.toNat

/-- The word index of a byte offset of the window: a multiple of 4 below 4096 (R51). The other numbers are no offset of
the window and name no access; `offsetWidx` refuses them, and what this function gives for them is the model's choice, on
which nothing rests (log 20). -/
def widxOf (off : Nat) : Widx := BitVec.ofNat 10 (off / 4)

/-- The word index of a number that is written as a byte offset: none where R51 says that no access can be expressed. -/
def offsetWidx (off : Nat) : Option Widx := if off % 4 = 0 ∧ off < 4096 then some (widxOf off) else none

/-- The address map over byte offsets (R52), by the ranges of R55. -/
def regionAt (off : Nat) : Region :=
  if off = 0x000 then .id
  else if off = 0x004 then .status
  else if off = 0x008 then .valid
  else if off = 0x00C then .cmd
  else if h : 0x010 ≤ off ∧ off ≤ 0x01C then .key ⟨(off - 0x010) / 4, by omega⟩
  else if h : 0x020 ≤ off ∧ off ≤ 0x02C then .data ⟨(off - 0x020) / 4, by omega⟩
  else if h : 0x100 ≤ off ∧ off ≤ 0x19C then
    .rk ⟨(off - 0x100) / 16, by omega⟩ ⟨(off - 0x100) % 16 / 4, by omega⟩
  else if 0x400 ≤ off ∧ off ≤ 0x7FC then .sbox (BitVec.ofNat 8 ((off - 0x400) / 4))
  else if h : 0x800 ≤ off ∧ off ≤ 0x824 then .rcon ⟨(off - 0x800) / 4, by omega⟩
  else .reserved

/-- What stands at a word of the window (R52). -/
def region (widx : Widx) : Region := regionAt (offsetOf widx)

/-- The identification word, ASCII "AES1" (10_state.md R28). -/
def idWord : Word := 0x41455331

/-- The read returns a free value, or holds one in some of its bits: DATA, the RK window and VALID while BUSY = 1
(R62). -/
def readDraws (widx : Widx) (s : State) : Bool :=
  match region widx with
  | .data _ => s.busy
  | .rk _ _ => s.busy
  | .valid => s.busy
  | .id => false
  | .status => false
  | .cmd => false
  | .key _ => false
  | .sbox _ => false
  | .rcon _ => false
  | .reserved => false

/-- What the free value of a read while BUSY = 1 may depend on: all of the state but the turns to come and the record of
the reads made (log 4). -/
def busyView (s : State) : State := { s with turns := [], reads := [] }

/-- `BusRead(widx)`: the 32 bits a read returns (R55). A free value is a draw for this core in this state at this word,
and `s.draws` counts the draws, so that two reads need not agree, of one core or of two (R62; log 4). -/
def busRead (widx : Widx) (s : State) : Word :=
  match region widx with
  | .id => idWord
  | .status => statusWord s
  | .valid => validWord (if s.busy then Config.drawEntries (busyView s) else s.rkv) s
  | .cmd => 0x00000000
  | .key c => blockWord s.key c
  | .data c => if s.busy then Config.drawWord (busyView s) widx else blockWord s.data c
  | .rk r c => if s.busy then Config.drawWord (busyView s) widx else blockWord s.rk[r] c
  | .sbox v => (sbox v).setWidth 32
  | .rcon i => (rcon i).setWidth 32
  | .reserved => 0x00000000

/-- A host read: no state of the core changes (R66); the model's own fields record what was read and count the draw
(log 4, log 5). -/
def hostRead (widx : Widx) (s : State) : State :=
  { s with
    reads := ⟨widx, busRead widx s⟩ :: s.reads
    draws := if readDraws widx s then s.draws + 1 else s.draws }

/-- `BusWrite(widx, v)` (R64); a write to a read-only or reserved offset is rejected with ADDR (R65). -/
def busWrite (widx : Widx) (v : Word) (s : State) : State :=
  match region widx with
  | .status => writeStatus v s
  | .cmd => issueCommand v s
  | .key c => writeKey c v s
  | .data c => writeData c v s
  | .id => reject .addr s
  | .valid => reject .addr s
  | .rk _ _ => reject .addr s
  | .sbox _ => reject .addr s
  | .rcon _ => reject .addr s
  | .reserved => reject .addr s

end Sys2Proof.Machine
end

