-- ==== Sys2Proof/Machine/Gf.lean ====
section
/-! DEFINITION. GF(2^8) arithmetic on bytes (40_tables.md R100 to R103). Addition is `^^^` (R101). -/

namespace Sys2Proof.Machine

/-- Doubling: left shift by one bit, then XOR with 0x1B if the pre-shift high bit was set (R102). -/
def xtime (a : Byte) : Byte := (a <<< 1) ^^^ (if a[7] then 0x1B else 0x00)

/-- The multipliers that occur: "No other multiplier occurs in this block" (R103). -/
inductive Factor where
  | one
  | two
  | three
  deriving DecidableEq, Repr

/-- Multiplication by 1, 2 or 3 (R103). -/
def mul (m : Factor) (a : Byte) : Byte :=
  match m with
  | .one => a
  | .two => xtime a
  | .three => xtime a ^^^ a

end Sys2Proof.Machine
end

