-- ==== Sys2Proof/Machine/Cipher.lean ====
section
/-! DEFINITION. The block cipher engine: its functions (42_cipher_engine.md R140 to R145) and the meanings of the six
commands that work in place on DATA (R150 to R155). A meaning is the command's Engine step (30_encoding.md R87, R88);
the checks a command passes before it reaches the Engine are made at the CMD write, in Machine/Command.lean (R85, R86;
log 6). -/

namespace Sys2Proof.Machine

/-- `SubBytes(B)[i] = SBOX[B[i]]` (R140). -/
def subBytes (b : Block) : Block := b.map sbox

/-- `ShiftRows(B)[r + 4*c] = B[r + 4*((c + r) mod 4)]` (R141), byte i standing in row `i mod 4` and column `i div 4`
(00_scope.md R14). -/
def shiftRows (b : Block) : Block :=
  Vector.ofFn fun i => b[i.val % 4 + 4 * ((i.val / 4 + i.val % 4) % 4)]

/-- The matrix of MixColumns, row by row (R142). -/
def mixMatrix : Vector (Vector Factor 4) 4 :=
  #v[#v[.two, .three, .one, .one],
     #v[.one, .two, .three, .one],
     #v[.one, .one, .two, .three],
     #v[.three, .one, .one, .two]]

/-- Row r of the matrix times column c of a Block (R142). -/
def mixByte (b : Block) (r c : Fin 4) : Byte :=
  mul mixMatrix[r][0] b[0 + 4 * c.val] ^^^ mul mixMatrix[r][1] b[1 + 4 * c.val] ^^^
    mul mixMatrix[r][2] b[2 + 4 * c.val] ^^^ mul mixMatrix[r][3] b[3 + 4 * c.val]

/-- `MixColumns(B)` (R142). -/
def mixColumns (b : Block) : Block :=
  Vector.ofFn fun i => mixByte b ⟨i.val % 4, Nat.mod_lt _ (by decide)⟩ ⟨i.val / 4, by omega⟩

/-- `AddRoundKey(B, X)[i] = B[i] ^ X[i]` (R143). -/
def addRoundKey (b x : Block) : Block := Vector.zipWith (· ^^^ ·) b x

/-- `Round(B, X, j)`: steps 2a to 2d, with no column mixing in round 10 (R144). -/
def cipherRound (b x : Block) (j : Nat) : Block :=
  let t := shiftRows (subBytes b)
  addRoundKey (if j = 10 then t else mixColumns t) x

/-- `Encrypt(K, S, P)`: the whitening and the ten rounds (R145). -/
def encryptBlock (K : Block) (S : Schedule) (P : Block) : Block :=
  (List.finRange 10).foldl (fun st j => cipherRound st S[j] (j.val + 1)) (addRoundKey P K)

/-- ENCRYPT (R150): `DATA <- Encrypt(KEY, RK[0..9], DATA)`, then the status effects of R148. -/
def execEncrypt (s : State) : Result := .next (finish (setData (encryptBlock s.key s.rk s.data) s))

/-- ADD_ROUND_KEY k (R151): `DATA <- AddRoundKey(DATA, x)` with x = round key number k, then the status effects of
R148. No command has k > 10 (30_encoding.md R83; log 8). -/
def execAddRoundKey (k : Arg) (s : State) : Result :=
  if h : k.toNat < 11 then .next (finish (setData (addRoundKey s.data (roundKey ⟨k.toNat, h⟩ s)) s))
  else .fault .notACommand

/-- SUB_BYTES (R152): `DATA <- SubBytes(DATA)`, then the status effects of R148. -/
def execSubBytes (s : State) : Result := .next (finish (setData (subBytes s.data) s))

/-- SHIFT_ROWS (R153): `DATA <- ShiftRows(DATA)`, then the status effects of R148. -/
def execShiftRows (s : State) : Result := .next (finish (setData (shiftRows s.data) s))

/-- MIX_COLUMNS (R154): `DATA <- MixColumns(DATA)`, unconditionally, then the status effects of R148. -/
def execMixColumns (s : State) : Result := .next (finish (setData (mixColumns s.data) s))

/-- ROUND j (R155): `DATA <- Round(DATA, RK[j-1], j)`, then the status effects of R148. RK[j-1] is round key number j
(00_scope.md R18). No command has j = 0 or j > 10 (30_encoding.md R83; log 8). -/
def execRound (j : Arg) (s : State) : Result :=
  if h : 1 ≤ j.toNat ∧ j.toNat < 11 then
    .next (finish (setData (cipherRound s.data (roundKey ⟨j.toNat, h.2⟩ s) j.toNat) s))
  else .fault .notACommand

end Sys2Proof.Machine
end

