-- ==== Sys2Proof/Machine/KeySchedule.lean ====
section
/-! DEFINITION. The key scheduler: its functions (41_key_schedule.md R120 to R124) and the meanings of EXPAND_KEY and
KEY_ROUND (R126, R127). A meaning is the command's Engine step (30_encoding.md R87, R88); the checks a command passes
before it reaches the Engine are made at the CMD write, in Machine/Command.lean (R85, R86; log 6). -/

namespace Sys2Proof.Machine

/-- `RotWord([b0, b1, b2, b3]) = [b1, b2, b3, b0]` (R121). -/
def rotWord (w : Quad) : Quad := #v[w[1], w[2], w[3], w[0]]

/-- `SubWord`: each byte through the S-box (R122). -/
def subWord (w : Quad) : Quad := w.map sbox

/-- The XOR of two words is their bytewise XOR (R120). -/
def xorQuad (a b : Quad) : Quad := Vector.zipWith (· ^^^ ·) a b

/-- `g(w, r)`: rotate, substitute, and XOR the first byte with `RCON[r]` (R123). -/
def gWord (w : Quad) (r : Fin 10) : Quad :=
  let t := subWord (rotWord w)
  #v[t[0] ^^^ rcon r, t[1], t[2], t[3]]

/-- `KeyRound(prev, r)`: the next round key from the one before it (R124). -/
def keyRound (prev : Block) (r : Fin 10) : Block :=
  let w4 := xorQuad (quadOf prev 0) (gWord (quadOf prev 3) r)
  let w5 := xorQuad w4 (quadOf prev 1)
  let w6 := xorQuad w5 (quadOf prev 2)
  let w7 := xorQuad w6 (quadOf prev 3)
  blockOfQuads w4 w5 w6 w7

/-- `s[r]` of `ExpandKey(K)`: `KeyRound(K, 0)` for r = 0, else `KeyRound(s[r-1], r)` (R124). -/
def expandEntry (K : Block) (r : Nat) (h : r < 10) : Block :=
  match r with
  | 0 => keyRound K 0
  | n + 1 => keyRound (expandEntry K n (Nat.lt_of_succ_lt h)) ⟨n + 1, h⟩

/-- `ExpandKey(K)`: the ten round keys of a cipher key (R124). -/
def expandKey (K : Block) : Schedule := Vector.ofFn fun r => expandEntry K r.val r.isLt

/-- EXPAND_KEY (R126): `RK[0..9] <- ExpandKey(KEY)`, `RKV <- 0x3FF`, then the status effects of R125. -/
def execExpandKey (s : State) : Result := .next (finish (setSchedule (expandKey s.key) s))

/-- KEY_ROUND r (R127): `RK[r] <- KeyRound(prev, r)` with prev = KEY for r = 0 and RK[r-1] otherwise, which is round
key number r; `RKV[r] <- 1`; then the status effects of R125. No command has r > 9 (30_encoding.md R83; log 8). -/
def execKeyRound (r : Arg) (s : State) : Result :=
  if h : r.toNat < 10 then
    .next (finish (setEntry ⟨r.toNat, h⟩
      (keyRound (roundKey ⟨r.toNat, Nat.lt_succ_of_lt h⟩ s) ⟨r.toNat, h⟩) s))
  else .fault .notACommand

end Sys2Proof.Machine
end

