-- ==== Sys2Proof/Machine/Dispatch.lean ====
section
/-! DEFINITION. The dispatch from a command to its meaning: `Perform` of 30_encoding.md R88 with the end of the Engine
step of R87. -/

namespace Sys2Proof.Machine

def exec (i : Instr) (s : State) : Host.Outcome State Fault Refusal :=
  match i with
  | .expandKey => Sys2Proof.Machine.execExpandKey s
  | .encrypt => Sys2Proof.Machine.execEncrypt s
  | .keyRound r => Sys2Proof.Machine.execKeyRound r s
  | .addRoundKey k => Sys2Proof.Machine.execAddRoundKey k s
  | .subBytes => Sys2Proof.Machine.execSubBytes s
  | .shiftRows => Sys2Proof.Machine.execShiftRows s
  | .mixColumns => Sys2Proof.Machine.execMixColumns s
  | .round j => Sys2Proof.Machine.execRound j s

end Sys2Proof.Machine
end

