-- ==== Sys2Proof/Machine/Agents.lean ====
section
/-! DEFINITION. One step of each agent: the Host, the Engine and the reset (00_scope.md R10; 20_memory.md R70), and
how a command is put where the Engine takes its next one from. -/

namespace Sys2Proof.Machine

/-- The Engine step (30_encoding.md R87): it performs the command in PEND. It is enabled exactly when PEND != none; a
turn of the Engine without a pending command does nothing (log 3). -/
def engineStep (s : State) : Result :=
  match s.pend with
  | none => .next s
  | some p =>
    match decodeFields p.op p.arg with
    | .ok i => exec i s
    | .error _ => .fault .notACommand

/-- One access of the host, a single atomic step (20_memory.md R50, R67). -/
def hostAccess (a : Access) (s : State) : State :=
  match a with
  | .read widx => hostRead widx s
  | .write widx v => busWrite widx v s

/-- One turn of the agent it names (20_memory.md R70). -/
def takeTurn (t : Turn) (s : State) : Result :=
  match t with
  | .host a => .next (hostAccess a s)
  | .engine => engineStep s
  | .reset => .next (resetCore s)

/-- One step: the first of the turns to come. When none is left, the Engine performs what is pending, by the weak
fairness of 00_scope.md R12 (log 2), and an idle core keeps its state (60_exceptions.md R187). -/
def nextTurn (s : State) : Result :=
  match s.turns with
  | [] => engineStep s
  | t :: rest => takeTurn t (withTurns rest s)

/-- The word index of STATUS (20_memory.md R52). -/
def statusWidx : Widx := widxOf 0x004

/-- The word index of CMD (20_memory.md R52). -/
def cmdWidx : Widx := widxOf 0x00C

/-- The command word put where the next step takes its command from: in PEND, as an accepted command, with the turn
given to the Engine. A word that is no command cannot stand in PEND, so it is put in the next turn as a write of it to
CMD, which rejects it (log 7). -/
def placeCommand (v : Word) (s : State) : State :=
  match decode v with
  | .ok _ => accept ⟨opOf v, argOf v⟩ (withTurns (.engine :: s.turns) s)
  | .error _ => withTurns (.host (.write cmdWidx v) :: s.turns) s

end Sys2Proof.Machine
end

