-- ==== Sys2Proof/Machine/Step.lean ====
section
/-! DEFINITION. The step function of the core, and the place a command is fetched from. -/

namespace Sys2Proof.Machine

/-- One step of a run: one host access, one Engine step or one reset (20_memory.md R70). -/
def step (s : State) : Host.Outcome State Fault Refusal := nextTurn s

/-- `s` with the command of the low `nbits` bits of `w` placed so that the very next step performs it (log 7, log
18). -/
def State.withFetchWord (s : State) (nbits w : Nat) : State :=
  placeCommand (BitVec.ofNat 32 (w % 2 ^ nbits)) s

end Sys2Proof.Machine
end

