-- ==== Sys2Proof/Machine/HostProgram.lean ====
section
/-! DEFINITION. The notation of host programs (30_encoding.md R90), its pseudo-instructions (R91), and a host that runs a
program beside the core, in any interleaving with the Engine and the reset. A host's own instruction set is outside the
spec; what reaches the core is the sequence of accesses its program makes. -/

namespace Sys2Proof.Machine

/-- The byte offset that a register name stands for, for the names of R90 and for the words of the ROM windows
(20_memory.md R52). -/
def Region.offset (r : Region) : Option Nat :=
  match r with
  | .id => some 0x000
  | .status => some 0x004
  | .valid => some 0x008
  | .cmd => some 0x00C
  | .key c => some (0x010 + 4 * c.val)
  | .data c => some (0x020 + 4 * c.val)
  | .rk r c => some (0x100 + 16 * r.val + 4 * c.val)
  | .sbox v => some (0x400 + 4 * v.toNat)
  | .rcon i => some (0x800 + 4 * i.val)
  | .reserved => none

/-- One line of a host program (R90, R91). An offset stands as its word index, since no other number can be the offset of
an access (20_memory.md R51; `offsetWidx` reads a number as an offset). -/
inductive Line where
  /-- `WR <off>, <value>`. -/
  | wr (widx : Widx) (v : Word)
  /-- `RD <off>` or `RD <off> -> <name>`. -/
  | rd (widx : Widx) (name : Option String)
  /-- `CMD <mnemonic> [arg]`, the mnemonic by its OP. -/
  | cmd (op : Opcode) (arg : Arg)
  /-- `WAIT`. -/
  | wait
  /-- `RUN <mnemonic> [arg]`. -/
  | run (op : Opcode) (arg : Arg)
  /-- `LOADKEY w0, w1, w2, w3`. -/
  | loadKey (w0 w1 w2 w3 : Word)
  /-- `LOADDATA w0, w1, w2, w3`. -/
  | loadData (w0 w1 w2 w3 : Word)
  /-- `READDATA -> d0, d1, d2, d3`. -/
  | readData (d0 d1 d2 d3 : String)
  /-- `CLRSTAT`. -/
  | clrStat
  deriving DecidableEq, Repr

/-- What a host does for a line: it writes, it reads and keeps the value under a name if there is one (R90), or it polls
(R91). -/
inductive HostAct where
  | write (widx : Widx) (v : Word)
  | read (widx : Widx) (name : Option String)
  /-- `loop: RD STATUS -> s ; repeat while s[0] == 1`. The `s` is only tested here, not kept (DESIGN CHOICE, log 21). -/
  | poll
  deriving DecidableEq, Repr

/-- The four writes of LOADKEY and LOADDATA, from the offset of word 0 (R91). -/
def loadActs (off : Nat) (w0 w1 w2 w3 : Word) : List HostAct :=
  [.write (widxOf off) w0, .write (widxOf (off + 4)) w1, .write (widxOf (off + 8)) w2, .write (widxOf (off + 12)) w3]

/-- `WR CMD, (arg << 8) | OP(mnemonic)` (R91). -/
def cmdAct (op : Opcode) (arg : Arg) : HostAct := .write cmdWidx (commandWord op arg)

/-- What a line expands to (R90, R91). -/
def expandLine (l : Line) : List HostAct :=
  match l with
  | .wr widx v => [.write widx v]
  | .rd widx name => [.read widx name]
  | .cmd op arg => [cmdAct op arg]
  | .wait => [.poll]
  | .run op arg => [cmdAct op arg, .poll]
  | .loadKey w0 w1 w2 w3 => loadActs 0x010 w0 w1 w2 w3
  | .loadData w0 w1 w2 w3 => loadActs 0x020 w0 w1 w2 w3
  | .readData d0 d1 d2 d3 =>
    [.read (widxOf 0x020) (some d0), .read (widxOf 0x024) (some d1), .read (widxOf 0x028) (some d2),
      .read (widxOf 0x02C) (some d3)]
  | .clrStat => [.write statusWidx 0x00000006]

/-- What a program expands to, its lines in order (R90). -/
def expandProgram (p : List Line) : List HostAct := p.flatMap expandLine

/-- A core and the host that runs a program on it: what the host has still to do, and the values it has kept, each under
its name (R90), first one first. A name used again has each of its values there: R90 does not say whether the new one
replaces the old (DESIGN CHOICE, log 21). -/
structure HostRun where
  core : State
  todo : List HostAct
  kept : List (String × Word)
  deriving DecidableEq, Repr

/-- One access of the host: the next one of its program, and none when the program is over. A poll that reads BUSY = 1 is
made again (R91). A value read under a name is added at the end of those kept, also where the name has one already
(DESIGN CHOICE, log 21). -/
def hostStep (r : HostRun) : HostRun :=
  match r.todo with
  | [] => r
  | .write widx v :: rest => { r with core := busWrite widx v r.core, todo := rest }
  | .read widx name :: rest =>
    { core := hostRead widx r.core, todo := rest, kept := r.kept ++ (name.map fun n => (n, busRead widx r.core)).toList }
  | .poll :: rest =>
    { r with
      core := hostRead statusWidx r.core
      todo := if (busRead statusWidx r.core)[0] then .poll :: rest else rest }

/-- The agents whose steps interleave (00_scope.md R10; 20_memory.md R70). -/
inductive Agent where
  | host
  | engine
  | reset
  deriving DecidableEq, Repr

/-- One step of the agent named. A reset is of the core; the host's program goes on after it (log 15). -/
def agentStep (a : Agent) (r : HostRun) : Host.Outcome HostRun Fault Refusal :=
  match a with
  | .host => .next (hostStep r)
  | .engine =>
    match engineStep r.core with
    | .next t => .next { r with core := t }
    | .fault f => .fault f
    | .refused f => .refused f
  | .reset => .next { r with core := resetCore r.core }

/-- The steps of the agents named, first one first: any order is a list of agents (20_memory.md R70; log 15). -/
def agentSteps (as : List Agent) (r : HostRun) : Host.Outcome HostRun Fault Refusal :=
  match as with
  | [] => .next r
  | a :: rest =>
    match agentStep a r with
    | .next r' => agentSteps rest r'
    | .fault f => .fault f
    | .refused f => .refused f

/-- A host that is about to run the program `p` on a core (R90). -/
def startHost (p : List Line) (s : State) : HostRun := ⟨s, expandProgram p, []⟩

/-- `expand_key(K)` of the source's interface: LOADKEY and RUN EXPAND_KEY (R92). -/
def expandKeyCall (K : Block) : List Line :=
  [.loadKey (blockWord K 0) (blockWord K 1) (blockWord K 2) (blockWord K 3), .run 0x01 0]

/-- `encrypt_block(K, schedule, P)` of the source's interface, after `expand_key(K)`: LOADDATA, RUN ENCRYPT and READDATA
(R92). -/
def encryptBlockCall (P : Block) : List Line :=
  [.loadData (blockWord P 0) (blockWord P 1) (blockWord P 2) (blockWord P 3), .run 0x02 0,
    .readData "d0" "d1" "d2" "d3"]

end Sys2Proof.Machine
end

