-- ==== Sys2Proof/Machine/Platform.lean ====
section
/-! DEFINITION. Several instances of the core on one platform (00_scope.md R9; 60_exceptions.md R185), and where the
window of each stands in the platform's address space (20_memory.md R51). -/

namespace Sys2Proof.Machine

/-- The instances of a platform, each by its position. Each has all the state of 10_state.md; only the ROM contents,
which are constants, are the same everywhere (R9). -/
abbrev Platform := List State

/-- Every instance has its position as its number, so that no two share a number, and with it no window and no free
value (R9, R185; log 4, log 14). -/
def Platform.numbered (p : Platform) : Prop := ∀ (n : Nat) (s : State), p[n]? = some s → s.number = n

/-- Instances "start together at reset" (R185). -/
def platformReset (n : Nat) : Platform := (List.range n).map fun i => { State.reset with number := i }

/-- One step of instance `n`; no other instance moves, and a number that names no instance moves none (R9, R185). Where
the step is a reset turn, it resets that instance alone (log 14). -/
def platformStep (n : Nat) (p : Platform) : Host.Outcome Platform Fault Refusal :=
  match p[n]? with
  | none => .next p
  | some s =>
    match step s with
    | .next t => .next (p.set n t)
    | .fault f => .fault f
    | .refused r => .refused r

/-- The reset of every instance in one step (R185: "start together at reset"). The spec does not say whether a later
reset is of one instance or of all; the model has both (log 14). -/
def platformResetAll (p : Platform) : Platform := p.map resetCore

/-- The platform address of a word of the window of instance `number`: its CORE_BASE and the byte offset (20_memory.md
R51; log 10). -/
def platformAddress (number : Nat) (widx : Widx) : Nat := Config.coreBase number + offsetOf widx

/-- The word of the window of instance `number` at a platform address: none outside that window or off a word boundary,
where no access can be expressed (20_memory.md R51; log 10). -/
def widxAt (number : Nat) (address : Nat) : Option Widx :=
  if Config.coreBase number ≤ address then offsetWidx (address - Config.coreBase number) else none

/-- Each of the first `n` instances has its own window: no two of them share an address (R185). The bases are the
platform's to choose (log 10). -/
def WindowsApart (n : Nat) : Prop :=
  ∀ i j : Nat, i < n → j < n → i ≠ j →
    Config.coreBase i + 4096 ≤ Config.coreBase j ∨ Config.coreBase j + 4096 ≤ Config.coreBase i

/-- An instance and a word of its window. -/
structure Place where
  number : Nat
  widx : Widx
  deriving DecidableEq, Repr

/-- The instance whose window holds a platform address, and the word there (20_memory.md R51; R185). -/
def placeAt (p : Platform) (address : Nat) : Option Place :=
  (List.range p.length).findSome? fun i => (widxAt i address).map (Place.mk i)

end Sys2Proof.Machine
end

