-- ==== Sys2Proof/Safety.lean ====
section
/-! DEFINITION. What claims about the core are stated with: the invariant of its states, the frames of its commands,
and runs. -/

namespace Sys2Proof.Machine

/-- The mask `2^n - 1` of the first n schedule entries (10_state.md R27 (a)). -/
def firstEntries (n : Nat) : BitVec 10 := BitVec.ofNat 10 (2 ^ n - 1)

/-- What the spec says of every reachable state (10_state.md R27, R30, R32; 30_encoding.md R86 to R88; 20_memory.md
R63). -/
structure State.Inv (s : State) : Prop where
  /-- BUSY is 1 exactly when PEND != none (R30). -/
  busy_iff_pending : s.busy = s.pend.isSome
  /-- ERR = 0 exactly when ERRCODE = 0 (R32). -/
  err_iff_code : s.err = false ↔ s.errcode = 0
  /-- The codes 7..15 are never produced (60_exceptions.md R172). -/
  code_produced : s.errcode.toNat ≤ 6
  /-- The valid entries are a prefix of the schedule (R27 (a)). -/
  entries_first : ∃ n, n ≤ 10 ∧ s.rkv = firstEntries n
  /-- A valid entry means a key of exactly 16 bytes (R27 (b)). -/
  entries_key : s.rkv ≠ 0 → s.keyv = 0b1111
  /-- A valid entry is the one that ExpandKey derives from the current key (R27 (c)). -/
  entries_derived : ∀ r : Fin 10, s.rkv[r.val] = true → s.rk[r] = (expandKey s.key)[r]
  /-- The pending pair names a command, and its checks still hold (R63, R86, R88). -/
  pending_ready : ∀ p, s.pend = some p → ∃ i, decodeFields p.op p.arg = .ok i ∧ checkState i s = none

/-- The end of an Engine step: `PEND <- none`, `BUSY <- 0`, `DONE <- 1` (30_encoding.md R87). -/
structure Finished (t : State) : Prop where
  pend : t.pend = none
  busy : t.busy = false
  done : t.done = true

/-- What a data-path command leaves as it was: everything but DATA and the three fields every Engine step ends with
(42_cipher_engine.md R148), and the model's own fields. -/
structure KeepsAllButData (s t : State) : Prop where
  key : t.key = s.key
  keyv : t.keyv = s.keyv
  datav : t.datav = s.datav
  rk : t.rk = s.rk
  rkv : t.rkv = s.rkv
  err : t.err = s.err
  errcode : t.errcode = s.errcode
  turns : t.turns = s.turns
  reads : t.reads = s.reads
  draws : t.draws = s.draws
  number : t.number = s.number

/-- What a key-schedule command leaves as it was: everything but RK, RKV and the three fields every Engine step ends
with (41_key_schedule.md R125), and the model's own fields. -/
structure KeepsAllButSchedule (s t : State) : Prop where
  key : t.key = s.key
  keyv : t.keyv = s.keyv
  data : t.data = s.data
  datav : t.datav = s.datav
  err : t.err = s.err
  errcode : t.errcode = s.errcode
  turns : t.turns = s.turns
  reads : t.reads = s.reads
  draws : t.draws = s.draws
  number : t.number = s.number

/-- The hardware part of two states is the same (10_state.md R20); the model's own fields may differ. -/
structure SameCore (s t : State) : Prop where
  key : t.key = s.key
  keyv : t.keyv = s.keyv
  data : t.data = s.data
  datav : t.datav = s.datav
  rk : t.rk = s.rk
  rkv : t.rkv = s.rkv
  busy : t.busy = s.busy
  done : t.done = s.done
  err : t.err = s.err
  errcode : t.errcode = s.errcode
  pend : t.pend = s.pend

/-- The next step is a host write of `v` to byte offset `off` of the window (a multiple of 4 below 4096, log 20), with
`rest` to follow. -/
def NextWrites (s : State) (off : Nat) (v : Word) (rest : List Turn) : Prop :=
  s.turns = .host (.write (widxOf off) v) :: rest

/-- The next step is the Engine's: it has the turn, or no turn is left (log 1, log 2). -/
def EngineNext (s : State) : Prop := s.turns = [] ∨ ∃ rest, s.turns = .engine :: rest

/-- A command word that is illegal, by the list of 30_encoding.md R83, on the word as a number. -/
def IllegalWord (v : Word) : Prop :=
  let op := v.toNat % 256
  let arg := v.toNat / 256 % 16
  v.toNat / 4096 ≠ 0 ∨ op = 0 ∨ 9 ≤ op ∨ ((op = 1 ∨ op = 2 ∨ op = 5 ∨ op = 6 ∨ op = 7) ∧ arg ≠ 0) ∨
    (op = 3 ∧ 9 < arg) ∨ (op = 4 ∧ 10 < arg) ∨ (op = 8 ∧ (arg = 0 ∨ 10 < arg))

/-- A state that an arbitrary environment can bring the core to from reset: some turns, one step after another. -/
inductive Reachable : State → Prop where
  | start (ts : List Turn) : Reachable { State.reset with turns := ts }
  | step (s t : State) (h : Reachable s) (ht : Sys2Proof.Machine.step s = .next t) : Reachable t

/-- The turns that issue each command of a list and have the Engine perform it, command after command. -/
def commandTurns (is : List Instr) : List Turn :=
  is.flatMap fun i => [.host (.write cmdWidx (encode i)), .engine]

end Sys2Proof.Machine
end

