-- ==== Sys2Proof/Certificates/Slice0/Obligations.lean ====
section
/-! DEFINITION. The statements about the core, for the provers. Each docstring names the rules of spec/ it formalises;
OBLIGATIONS.json lists them. A statement whose basis is derived says so there. -/

open Sys2Proof Sys2Proof.Machine

/-! ### Command words (30_encoding.md) -/

/-- R80 to R83: decoding the word of a well-formed command gives the command back, operand and all. -/
def Obligations.DecodeOfEncodedCommandIsTheCommand : Prop :=
  ∀ i : Instr, i.wf = true → decode (encode i) = .ok i

/-- R83: a word is refused exactly if it is on the rule's list of illegal words; every other word is the word of
exactly one well-formed command; and a write of an illegal word to CMD while BUSY = 0 is rejected with ILLEGAL and has
no other effect. -/
def Obligations.EveryWordIsOneCommandOrIllegal : Prop :=
  ∀ v : Word,
    (IllegalWord v ↔ ∃ e, decode v = .error e) ∧
    (¬ IllegalWord v → ∃ i : Instr, i.wf = true ∧ encode i = v ∧ decode v = .ok i ∧
      ∀ i' : Instr, i'.wf = true → encode i' = v → i' = i) ∧
    (IllegalWord v → ∀ (s : State) (rest : List Turn), NextWrites s 0x00C v rest → s.busy = false →
      step s = .next { s with turns := rest, err := true, errcode := 2 })

/-- R89: the legal words are the 36 that the rule lists, and no others. -/
def Obligations.LegalWordsAreTheThirtySixListed : Prop :=
  ∃ ws : List Word, ws.length = 36 ∧ ws.Nodup ∧
    (∀ v, v ∈ ws ↔ ∃ i, decode v = .ok i) ∧
    (∀ v, v ∈ ws ↔
      v = 0x00000001#32 ∨ v = 0x00000002#32 ∨ (∃ r, r ≤ 9 ∧ v = BitVec.ofNat 32 (0x003 + 0x100 * r)) ∨
      (∃ k, k ≤ 10 ∧ v = BitVec.ofNat 32 (0x004 + 0x100 * k)) ∨ v = 0x00000005#32 ∨ v = 0x00000006#32 ∨
      v = 0x00000007#32 ∨ (∃ j, 1 ≤ j ∧ j ≤ 10 ∧ v = BitVec.ofNat 32 (0x008 + 0x100 * j)))

/-- R80, R81, and the vectors V-DEC1: words written out from the encodings decode to the commands they stand for. -/
def Obligations.WrittenOutWordsDecode : Prop :=
  decode 0x00000001 = .ok .expandKey ∧ decode 0x00000002 = .ok .encrypt ∧
  decode 0x00000903 = .ok (.keyRound 9) ∧ decode 0x00000A04 = .ok (.addRoundKey 10) ∧
  decode 0x00000005 = .ok .subBytes ∧ decode 0x00000006 = .ok .shiftRows ∧
  decode 0x00000007 = .ok .mixColumns ∧ decode 0x00000108 = .ok (.round 1) ∧
  decode 0x00000008 = .error .operandRange ∧ decode 0x00001001 = .error .reservedBits

/-- R81 and spec/opcode_table.json: a legal word has the fixed bits of its command's row of the table, and a word has
the fixed bits of at most one row. -/
def Obligations.TableRowsFitAndDoNotOverlap : Prop :=
  (∀ (v : Word) (i : Instr), decode v = .ok i → v &&& i.row.mask = i.row.pattern) ∧
  (∀ (v : Word) (i i' : Instr), v &&& i.row.mask = i.row.pattern → v &&& i'.row.mask = i'.row.pattern →
    i.row = i'.row)

/-- R85: `Check(v)`, on the word as a number and with the rule's own order of tests. -/
def Obligations.CheckFollowsTheOrderOfTheRule : Prop :=
  ∀ (v : Word) (s : State),
    let op := v.toNat % 256
    let arg := v.toNat / 256 % 16
    let needK := op = 1 ∨ op = 2 ∨ op = 3 ∨ (op = 4 ∧ arg = 0)
    let needD := op = 2 ∨ op = 4 ∨ op = 5 ∨ op = 6 ∨ op = 7 ∨ op = 8
    let needR := fun r : Nat => (op = 2 ∧ r ≤ 9) ∨ ((op = 3 ∨ op = 4 ∨ op = 8) ∧ 1 ≤ arg ∧ r = arg - 1)
    (v.toNat / 4096 ≠ 0 → check v s = some .illegal) ∧
    (v.toNat / 4096 = 0 →
      (op = 0 ∨ 9 ≤ op → check v s = some .illegal) ∧
      ((op = 1 ∨ op = 2 ∨ op = 5 ∨ op = 6 ∨ op = 7) ∧ arg ≠ 0 → check v s = some .illegal) ∧
      (op = 3 ∧ 9 < arg → check v s = some .illegal) ∧
      (op = 4 ∧ 10 < arg → check v s = some .illegal) ∧
      (op = 8 ∧ (arg = 0 ∨ 10 < arg) → check v s = some .illegal)) ∧
    (¬ IllegalWord v →
      (needK ∧ s.keyv ≠ 0b1111 → check v s = some .keyLength) ∧
      (¬ (needK ∧ s.keyv ≠ 0b1111) →
        (needD ∧ s.datav ≠ 0b1111 → check v s = some .dataLength) ∧
        (¬ (needD ∧ s.datav ≠ 0b1111) →
          ((∃ r : Fin 10, needR r.val ∧ s.rkv[r.val] = false) → check v s = some .schedule) ∧
          (¬ (∃ r : Fin 10, needR r.val ∧ s.rkv[r.val] = false) → check v s = none))))

/-- R86: a write to CMD. BUSY comes first; a word that fails a check changes ERR and ERRCODE only; an accepted word
changes PEND, BUSY and DONE only. -/
def Obligations.CmdWriteIssuesOrRejects : Prop :=
  ∀ (s : State) (v : Word) (rest : List Turn), NextWrites s 0x00C v rest →
    (s.busy = true → step s = .next { s with turns := rest, err := true, errcode := 1 }) ∧
    (s.busy = false → ∀ e, check v s = some e →
      step s = .next { s with turns := rest, err := true, errcode := e.code }) ∧
    (s.busy = false → check v s = none →
      step s = .next { s with
        turns := rest, pend := some ⟨v.setWidth 8, (v >>> 8).setWidth 4⟩, busy := true, done := false })

/-! ### The functions of the two engines (40_tables.md to 42_cipher_engine.md) -/

/-- R102: doubling is a left shift by one bit, then XOR with 0x1B if the pre-shift high bit was set. -/
def Obligations.DoublingShiftsAndReduces : Prop :=
  ∀ a : Byte,
    (a.toNat < 0x80 → (xtime a).toNat = 2 * a.toNat) ∧
    (0x80 ≤ a.toNat → xtime a = BitVec.ofNat 8 (2 * a.toNat - 0x100) ^^^ 0x1B)

/-- R108: SBOX is a permutation without a fixed point and without an opposite fixed point; the RCON entries are
non-zero and pairwise distinct. The contents rest on log 11. -/
def Obligations.RomTablesHaveTheirProperties : Prop :=
  (∀ a b : Byte, sbox a = sbox b → a = b) ∧ (∀ b : Byte, ∃ a, sbox a = b) ∧
  (∀ a : Byte, sbox a ≠ a ∧ sbox a ≠ a ^^^ 0xFF) ∧
  (∀ r : Fin 10, rcon r ≠ 0) ∧ (∀ r r' : Fin 10, rcon r = rcon r' → r = r') ∧
  rcon 0 = 0x01 ∧ (∀ r : Fin 9, rcon r.succ = xtime (rcon r.castSucc))

/-- R124, with `g` of R123 written out: the 16 bytes of `KeyRound(prev, r)`. Its first word is `w0 ^ g(w3, r)`, with Rcon
in the first byte only, and each later word XORs the word before it. `ExpandKey(K)` starts from K and derives each entry
from the one before it. -/
def Obligations.KeyRoundChainsItsWords : Prop :=
  (∀ (prev : Block) (r : Fin 10), ∀ i : Fin 4,
    (keyRound prev r)[i.val] =
      prev[i.val] ^^^ (sbox prev[12 + (i.val + 1) % 4] ^^^ (if i.val = 0 then rcon r else 0)) ∧
    (keyRound prev r)[4 + i.val] = (keyRound prev r)[i.val] ^^^ prev[4 + i.val] ∧
    (keyRound prev r)[8 + i.val] = (keyRound prev r)[4 + i.val] ^^^ prev[8 + i.val] ∧
    (keyRound prev r)[12 + i.val] = (keyRound prev r)[8 + i.val] ^^^ prev[12 + i.val]) ∧
  (∀ K : Block, (expandKey K)[0] = keyRound K 0 ∧
    ∀ r : Fin 9, (expandKey K)[r.val + 1] = keyRound (expandKey K)[r.val] r.succ)

/-- R140, R141, R143: the bytes of SubBytes, ShiftRows and AddRoundKey. -/
def Obligations.ByteTransformationsMapTheirBytes : Prop :=
  ∀ b x : Block,
    (∀ i : Fin 16, (subBytes b)[i] = sbox b[i]) ∧
    (∀ r c : Fin 4, (shiftRows b)[r.val + 4 * c.val] = b[r.val + 4 * ((c.val + r.val) % 4)]'(by omega)) ∧
    (∀ i : Fin 16, (addRoundKey b x)[i] = b[i] ^^^ x[i])

/-- R146, R147: ShiftRows as the rule's list of indexes, and MixColumns written out for every column. -/
def Obligations.ShiftRowsListAndMixColumnsFormulas : Prop :=
  ∀ b : Block,
    shiftRows b = #v[b[0], b[5], b[10], b[15], b[4], b[9], b[14], b[3], b[8], b[13], b[2], b[7], b[12], b[1], b[6],
      b[11]] ∧
    ∀ c : Fin 4,
      let a0 := b[4 * c.val]
      let a1 := b[4 * c.val + 1]
      let a2 := b[4 * c.val + 2]
      let a3 := b[4 * c.val + 3]
      (mixColumns b)[4 * c.val] = xtime a0 ^^^ (xtime a1 ^^^ a1) ^^^ a2 ^^^ a3 ∧
      (mixColumns b)[4 * c.val + 1] = a0 ^^^ xtime a1 ^^^ (xtime a2 ^^^ a2) ^^^ a3 ∧
      (mixColumns b)[4 * c.val + 2] = a0 ^^^ a1 ^^^ xtime a2 ^^^ (xtime a3 ^^^ a3) ∧
      (mixColumns b)[4 * c.val + 3] = (xtime a0 ^^^ a0) ^^^ a1 ^^^ a2 ^^^ xtime a3

/-- R158: ShiftRows four times is the identity, AddRoundKey is its own inverse, SubBytes, ShiftRows and MixColumns are
bijections on Blocks, and MixColumns is linear over XOR. -/
def Obligations.RoundTransformationsObeyTheirLaws : Prop :=
  (∀ b : Block, shiftRows (shiftRows (shiftRows (shiftRows b))) = b) ∧
  (∀ b x : Block, addRoundKey (addRoundKey b x) x = b) ∧
  Function.Bijective subBytes ∧ Function.Bijective shiftRows ∧ Function.Bijective mixColumns ∧
  (∀ a b : Block, mixColumns (addRoundKey a b) = addRoundKey (mixColumns a) (mixColumns b))

/-! ### The commands, each with its result, its completion and its frame (41_key_schedule.md, 42_cipher_engine.md) -/

/-- R126, R124: EXPAND_KEY completes in every state. Every entry of RK is derived from the one before it, the first
from KEY; RKV is 0x3FF; all else but the status of R125 stays. -/
def Obligations.ExpandKeyDerivesTheWholeSchedule : Prop :=
  ∀ s : State, ∃ t, exec .expandKey s = .next t ∧
    t.rk[0] = keyRound s.key 0 ∧ (∀ r : Fin 9, t.rk[r.val + 1] = keyRound t.rk[r.val] r.succ) ∧
    t.rkv = 0x3FF ∧ Finished t ∧ KeepsAllButSchedule s t

/-- R127: KEY_ROUND r, r = 0..9, completes in every state. RK[r] is `KeyRound(prev, r)` with prev = KEY for r = 0 and
RK[r-1] otherwise, RKV[r] is 1, the other entries and RKV bits are unchanged, and all else but the status of R125. -/
def Obligations.KeyRoundDerivesOneEntry : Prop :=
  ∀ (s : State) (r : Arg) (hr : r.toNat < 10), ∃ t, exec (.keyRound r) s = .next t ∧
    (r = 0 → t.rk[0] = keyRound s.key 0) ∧
    (1 ≤ r.toNat → t.rk[r.toNat] = keyRound (s.rk[r.toNat - 1]'(by omega)) ⟨r.toNat, hr⟩) ∧
    t.rkv[r.toNat] = true ∧
    (∀ q : Fin 10, q.val ≠ r.toNat → t.rk[q] = s.rk[q] ∧ t.rkv[q.val] = s.rkv[q.val]) ∧
    Finished t ∧ KeepsAllButSchedule s t

/-- R150, R145: ENCRYPT completes in every state. DATA goes through the whitening with KEY and then the ten rounds
with RK[0..9]; all else but the status of R148 stays. -/
def Obligations.EncryptRunsWhiteningAndTenRounds : Prop :=
  ∀ s : State, ∃ (t : State) (st : Vector Block 11), exec .encrypt s = .next t ∧
    st[0] = addRoundKey s.data s.key ∧
    (∀ j : Fin 10, st[j.val + 1] = cipherRound st[j.val] s.rk[j] (j.val + 1)) ∧
    t.data = st[10] ∧ Finished t ∧ KeepsAllButData s t

/-- R151, R143: ADD_ROUND_KEY k, k = 0..10, completes in every state. Each byte of DATA is XORed with the byte of KEY
for k = 0 and of RK[k-1] for k >= 1; all else but the status of R148 stays. -/
def Obligations.AddRoundKeyXorsTheRoundKey : Prop :=
  ∀ (s : State) (k : Arg) (hk : k.toNat < 11), ∃ t, exec (.addRoundKey k) s = .next t ∧
    (k = 0 → ∀ i : Fin 16, t.data[i] = s.data[i] ^^^ s.key[i]) ∧
    (1 ≤ k.toNat → ∀ i : Fin 16, t.data[i] = s.data[i] ^^^ (s.rk[k.toNat - 1]'(by omega))[i]) ∧
    Finished t ∧ KeepsAllButData s t

/-- R152, R140: SUB_BYTES completes in every state and maps every byte of DATA through the S-box; all else but the
status of R148 stays. -/
def Obligations.SubBytesSubstitutesEveryByte : Prop :=
  ∀ s : State, ∃ t, exec .subBytes s = .next t ∧ (∀ i : Fin 16, t.data[i] = sbox s.data[i]) ∧
    Finished t ∧ KeepsAllButData s t

/-- R153, R141: SHIFT_ROWS completes in every state and rotates row r of DATA left by r positions; all else but the
status of R148 stays. -/
def Obligations.ShiftRowsRotatesEveryRow : Prop :=
  ∀ s : State, ∃ t, exec .shiftRows s = .next t ∧
    (∀ r c : Fin 4, t.data[r.val + 4 * c.val] = s.data[r.val + 4 * ((c.val + r.val) % 4)]'(by omega)) ∧
    Finished t ∧ KeepsAllButData s t

/-- R154, R142: MIX_COLUMNS completes in every state and multiplies every column of DATA by the fixed matrix, written
out as in R147; all else but the status of R148 stays. -/
def Obligations.MixColumnsMultipliesEveryColumn : Prop :=
  ∀ s : State, ∃ t, exec .mixColumns s = .next t ∧
    (∀ c : Fin 4,
      let a0 := s.data[4 * c.val]
      let a1 := s.data[4 * c.val + 1]
      let a2 := s.data[4 * c.val + 2]
      let a3 := s.data[4 * c.val + 3]
      t.data[4 * c.val] = mul .two a0 ^^^ mul .three a1 ^^^ mul .one a2 ^^^ mul .one a3 ∧
      t.data[4 * c.val + 1] = mul .one a0 ^^^ mul .two a1 ^^^ mul .three a2 ^^^ mul .one a3 ∧
      t.data[4 * c.val + 2] = mul .one a0 ^^^ mul .one a1 ^^^ mul .two a2 ^^^ mul .three a3 ∧
      t.data[4 * c.val + 3] = mul .three a0 ^^^ mul .one a1 ^^^ mul .one a2 ^^^ mul .two a3) ∧
    Finished t ∧ KeepsAllButData s t

/-- R155, R144: ROUND j, j = 1..10, completes in every state. DATA is substituted, shifted, mixed for j = 1..9 only,
and XORed with RK[j-1]; all else but the status of R148 stays. -/
def Obligations.RoundRunsItsStepsAndRoundTenSkipsMixing : Prop :=
  ∀ (s : State) (j : Arg) (_ : 1 ≤ j.toNat) (_ : j.toNat < 11),
    ∃ t, exec (.round j) s = .next t ∧
    (j.toNat < 10 →
      t.data = addRoundKey (mixColumns (shiftRows (subBytes s.data))) (s.rk[j.toNat - 1]'(by omega))) ∧
    (j.toNat = 10 → t.data = addRoundKey (shiftRows (subBytes s.data)) s.rk[9]) ∧
    Finished t ∧ KeepsAllButData s t

/-- R88, R170: a command whose operand is outside its range, which no word encodes, is the only one the Engine stops
on, with the model's fault notACommand (log 8); every well-formed command completes in every state. -/
def Obligations.WellFormedCommandsAlwaysComplete : Prop :=
  ∀ (i : Instr) (s : State),
    (i.wf = true → ∃ t, exec i s = .next t ∧ Finished t) ∧ (i.wf = false → exec i s = .fault .notACommand)

/-! ### Laws of the commands -/

/-- R128: KEY_ROUND 0, 1, ..., 9, each issued and performed, leave RK and RKV exactly as one EXPAND_KEY does, and DONE
= 1 and BUSY = 0 in both cases, from any idle state with KEYV = 0b1111. -/
def Obligations.TenKeyRoundsEqualOneExpandKey : Prop :=
  ∀ s : State, s.keyv = 0b1111 → s.busy = false →
    ∃ t u : State,
      core.run 20 { s with turns := commandTurns ((List.range 10).map fun r => .keyRound (BitVec.ofNat 4 r)) }
        = .next t ∧
      core.run 2 { s with turns := commandTurns [.expandKey] } = .next u ∧
      t.rk = u.rk ∧ t.rkv = u.rkv ∧ t.rk = expandKey s.key ∧ t.rkv = 0x3FF ∧
      t.done = true ∧ t.busy = false ∧ u.done = true ∧ u.busy = false

/-- R156: ADD_ROUND_KEY 0, ROUND 1, ..., ROUND 10, each issued and performed, leave DATA equal to what one ENCRYPT
leaves, from any idle state with KEYV = DATAV = 0b1111 and RKV = 0x3FF. -/
def Obligations.WhiteningAndTenRoundsEqualOneEncrypt : Prop :=
  ∀ s : State, s.keyv = 0b1111 → s.datav = 0b1111 → s.rkv = 0x3FF → s.busy = false →
    ∃ t u : State,
      core.run 22 { s with turns := commandTurns (.addRoundKey 0 ::
        (List.range 10).map fun j => .round (BitVec.ofNat 4 (j + 1))) } = .next t ∧
      core.run 2 { s with turns := commandTurns [.encrypt] } = .next u ∧
      t.data = u.data ∧ u.data = encryptBlock s.key s.rk s.data

/-- R157: ROUND j for j = 1..9 leaves DATA as SUB_BYTES, SHIFT_ROWS, MIX_COLUMNS, ADD_ROUND_KEY j do, and ROUND 10 as
SUB_BYTES, SHIFT_ROWS, ADD_ROUND_KEY 10 do, each command performed by the Engine one after another. -/
def Obligations.RoundEqualsItsPrimitives : Prop :=
  ∀ (s : State) (j : Arg), 1 ≤ j.toNat → j.toNat ≤ 10 →
    ∃ t t1 t2 t3 : State, exec (.round j) s = .next t ∧ exec .subBytes s = .next t1 ∧
      exec .shiftRows t1 = .next t2 ∧
      (j.toNat ≤ 9 → exec .mixColumns t2 = .next t3) ∧ (j.toNat = 10 → t3 = t2) ∧
      ∃ t4, exec (.addRoundKey j) t3 = .next t4 ∧ t4.data = t.data

/-- R150's corner case, from R27 (c): in a state of the invariant where ENCRYPT may be accepted, its result is the
encryption of DATA under KEY with KEY's own schedule. -/
def Obligations.AcceptedEncryptUsesTheScheduleOfItsKey : Prop :=
  ∀ s : State, s.Inv → checkState .encrypt s = none →
    ∃ t, exec .encrypt s = .next t ∧ t.data = encryptBlock s.key (expandKey s.key) s.data

/-- The programs of R90 to R92 for `expand_key(K)` and then `encrypt_block` of P, from any idle core, run by a host
beside it. How the host and the core interleave is the model's choice (log 15). First, each WAIT may read BUSY = 1 any
number of times and the program still completes. Second, from a core with nothing pending, in every interleaving with
the Engine that has no reset, whenever the program is over it has derived K's schedule, left the ciphertext of P under
K in DATA, read it back word by word, and had nothing rejected. That the host has then kept d0 to d3 in a list in this
order, and no s of its two WAITs, is the model's choice too (log 21): R91 expands WAIT to `RD STATUS -> s`, which by
R90 read literally keeps a value under s. -/
def Obligations.ExpandKeyAndEncryptBlockReturnTheCiphertext : Prop :=
  ∀ (s : State) (K P : Block), s.busy = false →
    let post := fun r : HostRun => r.todo = [] ∧
      r.core.key = K ∧ r.core.rk = expandKey K ∧ r.core.rkv = 0x3FF ∧
      r.core.data = encryptBlock K (expandKey K) P ∧
      r.core.done = true ∧ r.core.busy = false ∧ r.core.err = s.err ∧ r.core.errcode = s.errcode ∧
      r.core.turns = s.turns ∧
      r.kept = [("d0", blockWord r.core.data 0), ("d1", blockWord r.core.data 1), ("d2", blockWord r.core.data 2),
        ("d3", blockWord r.core.data 3)]
    (∀ polls polls' : Nat, ∃ r,
      agentSteps (List.replicate (5 + polls) .host ++ .engine :: (List.replicate (6 + polls') .host ++
        .engine :: List.replicate 5 .host)) (startHost (expandKeyCall K ++ encryptBlockCall P) s) = .next r ∧ post r) ∧
    (∀ (as : List Agent) (r : HostRun), s.pend = none → Agent.reset ∉ as →
      agentSteps as (startHost (expandKeyCall K ++ encryptBlockCall P) s) = .next r → r.todo = [] → post r)

/-! ### The Engine step (30_encoding.md R87) and its place in a run -/

/-- R87, R88: when the Engine is next (it has the turn, or no turn is left, log 2) and PEND holds a pair that names the
command i, the step is exec of i at the state with the turn taken; the command finishes; and without a pending command
the Engine changes nothing (log 3). -/
def Obligations.StepPerformsThePendingCommand : Prop :=
  (∀ (s : State) (p : Pending) (i : Instr), EngineNext s → s.pend = some p → decodeFields p.op p.arg = .ok i →
    step s = exec i { s with turns := s.turns.tail } ∧ ∃ t, step s = .next t ∧ Finished t) ∧
  (∀ s : State, EngineNext s → s.pend = none → step s = .next { s with turns := s.turns.tail })

/-- A command that the decoder reads from a word, placed by withFetchWord, is what the very next step performs, with
the word accepted as R86 accepts it (log 7). -/
def Obligations.PlacedWordIsPerformedByTheNextStep : Prop :=
  ∀ (s : State) (w : Nat) (i : Instr), decodeTableWord 32 w = some i →
    step (s.withFetchWord 32 w) =
      exec i { s with pend := some ⟨i.opcode, i.operand⟩, busy := true, done := false }

/-- R86, R87: from an idle state that meets the command's checks, the write of its word to CMD and the Engine step
after it together perform the command at the state as it was before the write. -/
def Obligations.IssuedCommandIsPerformed : Prop :=
  ∀ (s : State) (i : Instr) (rest : List Turn), i.wf = true → s.busy = false → checkState i s = none →
    s.turns = commandTurns [i] ++ rest →
    ∃ t u : State, core.run 2 s = .next t ∧ exec i { s with turns := rest } = .next u ∧ t = u

/-! ### The host bus (20_memory.md) -/

/-- R52, R55, R61, R62: what a read returns, offset by offset, over the whole window. ID, STATUS, CMD, KEY, the ROM
windows and the reserved offsets read the same whether BUSY is 0 or 1, and so do bits [7:0] and [31:18] of VALID.
DATA, the RK window and all of VALID read as the last clause says while BUSY = 0 (BusyReadsAreFreeOnlyWhereTheRuleSays
has them while BUSY = 1). -/
def Obligations.ReadsFollowTheAddressMap : Prop :=
  ∀ s : State,
    busRead (widxOf 0x000) s = 0x41455331 ∧
    (busRead (widxOf 0x004) s).toNat =
      16 * s.errcode.toNat + 4 * s.err.toNat + 2 * s.done.toNat + s.busy.toNat ∧
    busRead (widxOf 0x00C) s = 0 ∧
    (∀ c : Fin 4, busRead (widxOf (0x010 + 4 * c.val)) s = blockWord s.key c) ∧
    (∀ v : Byte, (busRead (widxOf (0x400 + 4 * v.toNat)) s).toNat = (sbox v).toNat) ∧
    (∀ i : Fin 10, (busRead (widxOf (0x800 + 4 * i.val)) s).toNat = (rcon i).toNat) ∧
    (∀ w : Widx, (0x030 ≤ 4 * w.toNat ∧ 4 * w.toNat ≤ 0x0FC) ∨ (0x1A0 ≤ 4 * w.toNat ∧ 4 * w.toNat ≤ 0x3FC) ∨
      0x828 ≤ 4 * w.toNat → busRead w s = 0) ∧
    (busRead (widxOf 0x008) s).toNat % 2 ^ 8 = 16 * s.datav.toNat + s.keyv.toNat ∧
    (busRead (widxOf 0x008) s).toNat < 2 ^ 18 ∧
    (s.busy = false →
      (busRead (widxOf 0x008) s).toNat = 256 * s.rkv.toNat + 16 * s.datav.toNat + s.keyv.toNat ∧
      (∀ c : Fin 4, busRead (widxOf (0x020 + 4 * c.val)) s = blockWord s.data c) ∧
      ∀ (r : Fin 10) (c : Fin 4), busRead (widxOf (0x100 + 16 * r.val + 4 * c.val)) s = blockWord s.rk[r] c)

/-- R53: byte 4c of a Block is the most significant byte of its word c, and Unpack gives the bytes back. -/
def Obligations.WordsArePackedBigEndian : Prop :=
  (∀ (b : Block) (c : Fin 4), (blockWord b c).toNat =
    b[4 * c.val].toNat * 2 ^ 24 + b[4 * c.val + 1].toNat * 2 ^ 16 + b[4 * c.val + 2].toNat * 2 ^ 8 +
      b[4 * c.val + 3].toNat) ∧
  (∀ v : Word, v.toNat = (unpack v)[0].toNat * 2 ^ 24 + (unpack v)[1].toNat * 2 ^ 16 +
    (unpack v)[2].toNat * 2 ^ 8 + (unpack v)[3].toNat) ∧
  (∀ (b : Block) (c : Fin 4) (v : Word), blockWord (setBlockWord b c v) c = v ∧
    ∀ c' : Fin 4, c' ≠ c → blockWord (setBlockWord b c v) c' = blockWord b c')

/-- R66, R55: a read never stops and changes no state of the core. What it returned is recorded, and a read that draws
no free value leaves the count of draws too (the model's own fields, log 4, log 5). -/
def Obligations.ReadsChangeNoState : Prop :=
  ∀ (s : State) (w : Widx) (rest : List Turn), s.turns = .host (.read w) :: rest →
    ∃ t, step s = .next t ∧ SameCore s t ∧ t.turns = rest ∧ t.reads = ⟨w, busRead w s⟩ :: s.reads ∧
      (readDraws w s = false → t.draws = s.draws) ∧ (readDraws w s = true → t.draws = s.draws + 1)

/-- R62: what a read returns while BUSY = 1. DATA and the RK window read a free value, VALID reads one in bits [17:8]
and its defined bits elsewhere, and every other read returns what it would in any other state that agrees in KEY, the
two write masks and STATUS, whatever DATA, RK, RKV and the draws are. That a free value is `Config.drawWord` or
`Config.drawEntries` of the core's state is the model's choice (log 4); no statement is made of what it is. -/
def Obligations.BusyReadsAreFreeOnlyWhereTheRuleSays : Prop :=
  ∀ s : State, s.busy = true →
    (∀ c : Fin 4, busRead (widxOf (0x020 + 4 * c.val)) s =
      Config.drawWord (busyView s) (widxOf (0x020 + 4 * c.val))) ∧
    (∀ (r : Fin 10) (c : Fin 4), busRead (widxOf (0x100 + 16 * r.val + 4 * c.val)) s =
      Config.drawWord (busyView s) (widxOf (0x100 + 16 * r.val + 4 * c.val))) ∧
    (busRead (widxOf 0x008) s).toNat =
      256 * (Config.drawEntries (busyView s)).toNat + 16 * s.datav.toNat + s.keyv.toNat ∧
    (∀ w : Widx, readDraws w s = false ↔
      ¬ (4 * w.toNat = 0x008 ∨ (0x020 ≤ 4 * w.toNat ∧ 4 * w.toNat ≤ 0x02C) ∨
        (0x100 ≤ 4 * w.toNat ∧ 4 * w.toNat ≤ 0x19C))) ∧
    (∀ (w : Widx) (t : State), readDraws w s = false → t.busy = s.busy → t.key = s.key → t.done = s.done →
      t.err = s.err → t.errcode = s.errcode → busRead w t = busRead w s)

/-- R57: a write to STATUS, in every state. Bit 1 clears DONE, bit 2 clears ERR and ERRCODE, and every other bit is
ignored. -/
def Obligations.StatusWriteClearsWhatItNames : Prop :=
  ∀ (s : State) (v : Word) (rest : List Turn), NextWrites s 0x004 v rest →
    step s = .next { s with
      turns := rest
      done := if v.toNat / 2 % 2 = 1 then false else s.done
      err := if v.toNat / 4 % 2 = 1 then false else s.err
      errcode := if v.toNat / 4 % 2 = 1 then 0 else s.errcode }

/-- R58: a write to KEYc. Rejected with BUSY while BUSY = 1; else it stores the four bytes, sets KEYV[c], clears RKV
whatever v is, and changes nothing else. -/
def Obligations.KeyWriteStoresAndInvalidatesTheSchedule : Prop :=
  ∀ (s : State) (c : Fin 4) (v : Word) (rest : List Turn), NextWrites s (0x010 + 4 * c.val) v rest →
    (s.busy = true → step s = .next { s with turns := rest, err := true, errcode := 1 }) ∧
    (s.busy = false → ∃ key' keyv',
      step s = .next { s with turns := rest, key := key', keyv := keyv', rkv := 0 } ∧
      blockWord key' c = v ∧ (∀ c' : Fin 4, c' ≠ c → blockWord key' c' = blockWord s.key c') ∧
      keyv'[c.val] = true ∧ (∀ c' : Fin 4, c' ≠ c → keyv'[c'.val] = s.keyv[c'.val]))

/-- R59: a write to DATAc. Rejected with BUSY while BUSY = 1; else it stores the four bytes, sets DATAV[c], and changes
nothing else. -/
def Obligations.DataWriteStoresOneWord : Prop :=
  ∀ (s : State) (c : Fin 4) (v : Word) (rest : List Turn), NextWrites s (0x020 + 4 * c.val) v rest →
    (s.busy = true → step s = .next { s with turns := rest, err := true, errcode := 1 }) ∧
    (s.busy = false → ∃ data' datav',
      step s = .next { s with turns := rest, data := data', datav := datav' } ∧
      blockWord data' c = v ∧ (∀ c' : Fin 4, c' ≠ c → blockWord data' c' = blockWord s.data c') ∧
      datav'[c.val] = true ∧ (∀ c' : Fin 4, c' ≠ c → datav'[c'.val] = s.datav[c'.val]))

/-- R65: a write to any offset but STATUS, CMD, KEY0..KEY3 and DATA0..DATA3 is rejected with ADDR, whether BUSY is 0 or
1, and changes nothing but ERR and ERRCODE. -/
def Obligations.WritesToReadOnlyOrReservedAreRejected : Prop :=
  ∀ (s : State) (w : Widx) (v : Word) (rest : List Turn), s.turns = .host (.write w v) :: rest →
    4 * w.toNat ≠ 0x004 → 4 * w.toNat ≠ 0x00C → ¬ (0x010 ≤ 4 * w.toNat ∧ 4 * w.toNat ≤ 0x02C) →
    step s = .next { s with turns := rest, err := true, errcode := 6 }

/-- R63: while BUSY = 1, a write to KEY0..KEY3, DATA0..DATA3 or CMD is rejected with code BUSY and changes nothing but
ERR and ERRCODE, so nothing the pending command reads can change before its Engine step: after any step that is no
reset, the command is still pending with the same inputs or the step was the Engine's. -/
def Obligations.NothingAPendingCommandReadsCanChange : Prop :=
  (∀ (s : State) (w : Widx) (v : Word) (rest : List Turn), s.busy = true →
    s.turns = .host (.write w v) :: rest →
    4 * w.toNat = 0x00C ∨ (0x010 ≤ 4 * w.toNat ∧ 4 * w.toNat ≤ 0x02C) →
    step s = .next { s with turns := rest, err := true, errcode := 1 }) ∧
  (∀ s t : State, s.busy = true → step s = .next t → ¬ EngineNext s → (¬ ∃ rest, s.turns = .reset :: rest) →
    t.pend = s.pend ∧ t.key = s.key ∧ t.keyv = s.keyv ∧ t.data = s.data ∧ t.datav = s.datav ∧ t.rk = s.rk ∧
      t.rkv = s.rkv ∧ t.busy = s.busy)

/-- R68: writing the same word twice in a row to KEYc, DATAc or STATUS leaves the same state as writing it once. -/
def Obligations.RegisterWritesAreIdempotent : Prop :=
  ∀ (s : State) (w : Widx) (v : Word), 4 * w.toNat ≠ 0x00C →
    busWrite w v (busWrite w v s) = busWrite w v s

/-- R55, R58, R59 together: while BUSY = 0, a word written to KEYc or DATAc is what the next read of it returns, and
the words at every other offset but VALID's read as before. -/
def Obligations.ReadAfterWriteReturnsTheWord : Prop :=
  ∀ (s : State) (w : Widx) (v : Word), s.busy = false → 0x010 ≤ 4 * w.toNat → 4 * w.toNat ≤ 0x02C →
    busRead w (busWrite w v s) = v ∧
    ∀ w' : Widx, w' ≠ w → 4 * w'.toNat ≠ 0x008 → busRead w' (busWrite w v s) = busRead w' s

/-! ### Which steps may change what (10_state.md) -/

/-- R21, R22: KEY changes only by a host write to a KEY word or by reset, and a bit of KEYV is cleared only by
reset. -/
def Obligations.KeyChangesOnlyByHostOrReset : Prop :=
  ∀ s t : State, step s = .next t → (¬ ∃ rest, s.turns = .reset :: rest) →
    (∀ c : Fin 4, s.keyv[c.val] = true → t.keyv[c.val] = true) ∧
    ((¬ ∃ (c : Fin 4) (v : Word) (rest : List Turn), NextWrites s (0x010 + 4 * c.val) v rest) →
      t.key = s.key ∧ t.keyv = s.keyv)

/-- R23, R24: DATA changes only by a host write to a DATA word, by the Engine step of ENCRYPT, ADD_ROUND_KEY,
SUB_BYTES, SHIFT_ROWS, MIX_COLUMNS or ROUND, or by reset; a bit of DATAV is cleared only by reset, and an Engine step
does not change DATAV. -/
def Obligations.DataChangesOnlyByHostEngineOrReset : Prop :=
  ∀ s t : State, step s = .next t → (¬ ∃ rest, s.turns = .reset :: rest) →
    (∀ c : Fin 4, s.datav[c.val] = true → t.datav[c.val] = true) ∧ (EngineNext s → t.datav = s.datav) ∧
    ((¬ ∃ (c : Fin 4) (v : Word) (rest : List Turn), NextWrites s (0x020 + 4 * c.val) v rest) →
      (¬ (EngineNext s ∧ ∃ p, s.pend = some p ∧ (p.op = 2 ∨ 4 ≤ p.op.toNat))) →
      t.data = s.data)

/-- R25: only the Engine's EXPAND_KEY and KEY_ROUND and reset write RK: "No data-path command writes RK", and the host
can only read it. -/
def Obligations.ScheduleChangesOnlyByKeyCommandsOrReset : Prop :=
  ∀ s t : State, step s = .next t → (¬ ∃ rest, s.turns = .reset :: rest) →
    (¬ (EngineNext s ∧ ∃ p, s.pend = some p ∧ (p.op = 1 ∨ p.op = 3))) → t.rk = s.rk

/-- R26: which steps change RKV, and how. -/
def Obligations.EntryMaskChangesOnlyAsTheRuleLists : Prop :=
  ∀ s t : State, step s = .next t →
    ((∃ rest, s.turns = .reset :: rest) → t.rkv = 0) ∧
    ((¬ ∃ rest, s.turns = .reset :: rest) →
      (∀ (c : Fin 4) (v : Word) (rest : List Turn), NextWrites s (0x010 + 4 * c.val) v rest → s.busy = false →
        t.rkv = 0) ∧
      (∀ p, EngineNext s → s.pend = some p → p.op = 1 → t.rkv = 0x3FF) ∧
      (∀ (p : Pending) (q : Fin 10), EngineNext s → s.pend = some p → p.op = 3 →
        t.rkv[q.val] = (s.rkv[q.val] || decide (q.val = p.arg.toNat))) ∧
      ((¬ ∃ (c : Fin 4) (v : Word) (rest : List Turn), NextWrites s (0x010 + 4 * c.val) v rest ∧ s.busy = false) →
        (¬ (EngineNext s ∧ ∃ p, s.pend = some p ∧ (p.op = 1 ∨ p.op = 3))) → t.rkv = s.rkv))

/-- R32: ERR and ERRCODE change only by a rejection, which sets ERR and gives the code of the latest one, by a write to
STATUS with bit 2 set, which clears both, and by reset; a command's completion leaves them as they were. -/
def Obligations.ErrorFieldsChangeOnlyByRejectionClearOrReset : Prop :=
  ∀ s t : State, step s = .next t →
    (t.err = s.err ∧ t.errcode = s.errcode) ∨
    (∃ (w : Widx) (v : Word) (rest : List Turn) (e : ErrCode), s.turns = .host (.write w v) :: rest ∧
      t = { s with turns := rest, err := true, errcode := e.code }) ∨
    (∃ (v : Word) (rest : List Turn), NextWrites s 0x004 v rest ∧ v[2] = true ∧ t.err = false ∧ t.errcode = 0) ∨
    (∃ rest, s.turns = .reset :: rest ∧ t.err = false ∧ t.errcode = 0)

/-- R30, R31, the 'nothing else' of each: a completion sets DONE and clears BUSY, and only a completion sets DONE; only
the acceptance of a command, a write to STATUS with bit 1 set or a reset clears DONE; only an acceptance, which clears
DONE, sets BUSY; and only a completion or a reset clears BUSY. (That an acceptance, a STATUS write and a reset do have
these effects is said by CmdWriteIssuesOrRejects, StatusWriteClearsWhatItNames and ResetSetsEveryPieceOfState.) -/
def Obligations.DoneAndBusyChangeOnlyAsTheRulesSay : Prop :=
  ∀ s t : State, step s = .next t →
    (s.done = false → t.done = true → EngineNext s ∧ s.pend ≠ none) ∧
    (EngineNext s → s.pend ≠ none → t.done = true ∧ t.busy = false) ∧
    (s.done = true → t.done = false →
      (∃ (v : Word) (rest : List Turn), NextWrites s 0x00C v rest ∧ s.busy = false ∧ check v s = none) ∨
      (∃ (v : Word) (rest : List Turn), NextWrites s 0x004 v rest ∧ v[1] = true) ∨
      (∃ rest, s.turns = .reset :: rest)) ∧
    (s.busy = false → t.busy = true →
      ∃ (v : Word) (rest : List Turn), NextWrites s 0x00C v rest ∧ check v s = none ∧ t.done = false) ∧
    (s.busy = true → t.busy = false → (EngineNext s ∧ s.pend ≠ none) ∨ ∃ rest, s.turns = .reset :: rest)

/-! ### Rejections (60_exceptions.md) -/

/-- R170, R171, R172, R175: which code a host write can raise, by its offset. A write to KEYc or DATAc fails only with
BUSY (1); a write to CMD with BUSY first, then ILLEGAL (2), then the precondition that fails: KEY_LENGTH (3),
DATA_LENGTH (4) or SCHEDULE (5), and it is accepted where none fails; a write to STATUS never; any other with ADDR (6),
always. A rejection changes ERR and ERRCODE only. Which precondition fails when is in CheckFollowsTheOrderOfTheRule. -/
def Obligations.EachWriteRaisesOnlyTheCodesOfItsOffset : Prop :=
  ∀ (s : State) (w : Widx) (v : Word),
    let t := busWrite w v s
    let rejected := fun n : BitVec 4 => t = { s with err := true, errcode := n }
    (0x010 ≤ 4 * w.toNat ∧ 4 * w.toNat ≤ 0x02C →
      (s.busy = true → rejected 1) ∧ (s.busy = false → t.err = s.err ∧ t.errcode = s.errcode)) ∧
    (4 * w.toNat = 0x00C →
      (s.busy = true → rejected 1) ∧ (s.busy = false → IllegalWord v → rejected 2) ∧
      (s.busy = false → ¬ IllegalWord v →
        (check v s = some .keyLength ∧ rejected 3) ∨ (check v s = some .dataLength ∧ rejected 4) ∨
        (check v s = some .schedule ∧ rejected 5) ∨
        (check v s = none ∧ t.err = s.err ∧ t.errcode = s.errcode ∧ t.busy = true))) ∧
    (4 * w.toNat = 0x004 → (t.err = s.err ∧ t.errcode = s.errcode) ∨ (t.err = false ∧ t.errcode = 0)) ∧
    (4 * w.toNat ≠ 0x004 ∧ 4 * w.toNat ≠ 0x00C ∧ ¬ (0x010 ≤ 4 * w.toNat ∧ 4 * w.toNat ≤ 0x02C) → rejected 6)

/-- R177: after CLRSTAT and a write to CMD, with no STATUS write or reset in between, STATUS tells acceptance from
rejection, whether the Engine has stepped since or not. -/
def Obligations.StatusTellsAcceptanceFromRejection : Prop :=
  ∀ (s : State) (v : Word) (engineTurns : List Turn), s.Inv → (engineTurns = [] ∨ engineTurns = [.engine]) →
    s.turns = .host (.write (widxOf 0x004) 6) :: .host (.write cmdWidx v) :: engineTurns →
    ∃ t, core.run (2 + engineTurns.length) s = .next t ∧
      (t.err = true ↔ s.busy = true ∨ check v s ≠ none) ∧
      (t.err = false → t.busy = true ∨ t.done = true)

/-- R172, I6, I8: the host's reading of every STATUS word that a state of the invariant shows succeeds, and gives the
rejection that ERRCODE names. -/
def Obligations.StatusWordCanBeReadBack : Prop :=
  ∀ s : State, s.Inv → ∃ c, statusView (statusWord s) = some ⟨s.busy, s.done, s.err, c⟩ ∧
    (s.err = false → c = none) ∧ (s.err = true → ∃ e, c = some e ∧ e.code = s.errcode)

/-! ### Reset, fairness and hazards (70_reset_and_hazards.md) -/

/-- R200: the reset step, from any state, also while BUSY = 1: every piece of the hardware's state takes its reset
value and a pending command is abandoned; and no other step clears a bit of KEYV or DATAV. That the model's own fields
stay is the model's choice (log 13). -/
def Obligations.ResetSetsEveryPieceOfState : Prop :=
  (∀ (s : State) (rest : List Turn), s.turns = .reset :: rest →
    ∃ t, step s = .next t ∧ (∀ i : Fin 16, t.key[i] = 0 ∧ t.data[i] = 0) ∧
      (∀ (r : Fin 10) (i : Fin 16), t.rk[r][i] = 0) ∧ t.keyv = 0 ∧ t.datav = 0 ∧ t.rkv = 0 ∧
      t.busy = false ∧ t.done = false ∧ t.err = false ∧ t.errcode = 0 ∧ t.pend = none ∧
      t.turns = rest ∧ t.reads = s.reads ∧ t.draws = s.draws ∧ t.number = s.number) ∧
  (∀ s t : State, step s = .next t → (¬ ∃ rest, s.turns = .reset :: rest) → ∀ c : Fin 4,
    (s.keyv[c.val] = true → t.keyv[c.val] = true) ∧ (s.datav[c.val] = true → t.datav[c.val] = true))

/-- R201: what every register reads right after reset. -/
def Obligations.RegistersReadTheirResetValues : Prop :=
  ∀ w : Widx,
    (w = widxOf 0x000 → busRead w State.reset = 0x41455331) ∧
    (w ≠ widxOf 0x000 → ¬ (0x400 ≤ 4 * w.toNat ∧ 4 * w.toNat ≤ 0x824) → busRead w State.reset = 0)

/-- R12, with the model's reading of weak fairness (log 2): from a state of the invariant with a command pending, and
no reset among the turns to come, the command has been performed after at most one step more than the turns to
come. -/
def Obligations.PendingCommandCompletes : Prop :=
  ∀ s : State, s.Inv → s.pend ≠ none → Turn.reset ∉ s.turns →
    ∃ n t, n ≤ s.turns.length + 1 ∧ core.run n s = .next t ∧ t.pend = none ∧ t.done = true

/-- R71: if a command is pending and a later state of the run shows BUSY = 0 with no reset among the turns taken, then
one step in between was the Engine's performing of that very command, on the KEY, DATA, RK and masks of the start. -/
def Obligations.CompletionIsVisibleOnceBusyIsClear : Prop :=
  ∀ (s t : State) (p : Pending) (n : Nat), s.Inv → s.pend = some p → Turn.reset ∉ s.turns.take n →
    core.run n s = .next t → t.busy = false →
    ∃ (m : Nat) (u u' : State) (i : Instr), m < n ∧ core.run m s = .next u ∧ u.pend = some p ∧
      u.key = s.key ∧ u.keyv = s.keyv ∧ u.data = s.data ∧ u.datav = s.datav ∧ u.rk = s.rk ∧ u.rkv = s.rkv ∧
      decodeFields p.op p.arg = .ok i ∧ core.run (m + 1) s = .next u' ∧
      exec i { u with turns := u.turns.tail } = .next u'

/-- R211, R84: right after an accepted write to a KEY word, whatever it writes, every command that reads an entry of the
schedule fails its check: ENCRYPT, ROUND j, ADD_ROUND_KEY k with k >= 1, and KEY_ROUND r with r >= 1. With the block
written, if the command needs it (all but KEY_ROUND), and the other three key words, if it needs the key (ENCRYPT and
KEY_ROUND), the check fails with SCHEDULE. (RKV stays 0 until the schedule is derived again, by
EntryMaskChangesOnlyAsTheRuleLists.) -/
def Obligations.KeyWriteBlocksTheCommandsThatNeedTheSchedule : Prop :=
  ∀ (s : State) (c : Fin 4) (v : Word) (i : Instr), i.wf = true → s.busy = false →
    (i = .encrypt ∨ (∃ j, i = .round j) ∨ (∃ k, i = .addRoundKey k ∧ k ≠ 0) ∨ ∃ r, i = .keyRound r ∧ r ≠ 0) →
    checkState i (busWrite (widxOf (0x010 + 4 * c.val)) v s) ≠ none ∧
    (((∀ r, i ≠ .keyRound r) → s.datav = 0b1111) →
      ((i = .encrypt ∨ ∃ r, i = .keyRound r) → ∀ c' : Fin 4, c' ≠ c → s.keyv[c'.val] = true) →
      checkState i (busWrite (widxOf (0x010 + 4 * c.val)) v s) = some .schedule)

/-! ### Invariants (10_state.md R27, R30, R32) -/

/-- The invariant holds right after reset. -/
def Obligations.InvariantHoldsAtReset : Prop := State.reset.Inv

/-- From every state that meets the invariant, every step gives a state that meets it. -/
def Obligations.EveryStepKeepsTheInvariant : Prop :=
  ∀ s t : State, s.Inv → step s = .next t → t.Inv

/-- R87, R170: from a state that meets the invariant no step stops: reads are never rejected, a rejected write is a
next state, and "It cannot fail" holds of the Engine step. -/
def Obligations.NoStepStopsUnderTheInvariant : Prop :=
  ∀ s : State, s.Inv → ∃ t, step s = .next t

/-- R27, R30, R32: every state that an arbitrary sequence of host accesses, Engine steps and resets can bring the core
to from reset meets the invariant, and no step stops there. -/
def Obligations.ReachableStatesMeetTheInvariant : Prop :=
  ∀ s : State, Reachable s → s.Inv ∧ ∃ t, step s = .next t

/-! ### Several instances (00_scope.md R9) -/

/-- R9, R185, R51: a step of one instance leaves every other instance as it was, moves the one it is a step of exactly as
that instance alone would move, and keeps the instances' numbers; "start together at reset" gives each instance its own
number and the reset values; and where the windows are apart (log 10), each address of an instance's window is that
instance's alone. -/
def Obligations.InstancesAreIndependent : Prop :=
  (∀ (p q : Platform) (n : Nat), platformStep n p = .next q →
    (∀ m : Nat, m ≠ n → q[m]? = p[m]?) ∧
    (∀ s, p[n]? = some s → ∃ t, step s = .next t ∧ q[n]? = some t) ∧ q.length = p.length ∧
    (p.numbered → q.numbered)) ∧
  (∀ n : Nat, (platformReset n).numbered ∧ (platformReset n).length = n ∧
    ∀ s ∈ platformReset n, SameCore State.reset s) ∧
  (∀ (p : Platform) (i : Nat) (w : Widx), WindowsApart p.length → i < p.length →
    placeAt p (platformAddress i w) = some ⟨i, w⟩)
end

