-- ==== Sys2Proof/Laws/Block.lean ====
section
/-! SUPPORT. Lemmas about Blocks: the bytes of every function over them. -/

namespace Sys2Proof.Machine

variable (b x : Block)

theorem getElem_subBytes (i : Nat) (h : i < 16) : (subBytes b)[i] = sbox b[i] := by
  simp [subBytes]

theorem getElem_shiftRows (i : Nat) (h : i < 16) :
    (shiftRows b)[i] = b[i % 4 + 4 * ((i / 4 + i % 4) % 4)] := by
  simp [shiftRows]

theorem getElem_addRoundKey (i : Nat) (h : i < 16) : (addRoundKey b x)[i] = b[i] ^^^ x[i] := by
  simp [addRoundKey]

theorem getElem_mixColumns (i : Nat) (h : i < 16) :
    (mixColumns b)[i] = mixByte b ⟨i % 4, Nat.mod_lt _ (by decide)⟩ ⟨i / 4, by omega⟩ := by
  simp [mixColumns]

theorem getElem_setBlockWord (c : Fin 4) (v : Word) (i : Nat) (h : i < 16) :
    (setBlockWord b c v)[i] = if i / 4 = c.val then (unpack v)[i % 4] else b[i] := by
  simp [setBlockWord]

/-- Two Blocks with the same bytes are the same. -/
theorem block_ext {b x : Block} (h : ∀ i : Fin 16, b[i] = x[i]) : b = x :=
  Vector.ext fun i hi => h ⟨i, hi⟩

theorem blockWord_toNat (c : Fin 4) : (blockWord b c).toNat =
    b[4 * c.val].toNat * 2 ^ 24 + b[4 * c.val + 1].toNat * 2 ^ 16 + b[4 * c.val + 2].toNat * 2 ^ 8 +
      b[4 * c.val + 3].toNat := by
  have h1 := b[4 * c.val + 1].isLt
  have h2 := b[4 * c.val + 2].isLt
  have h3 := b[4 * c.val + 3].isLt
  simp only [blockWord, BitVec.toNat_append]
  rw [← Nat.shiftLeft_add_eq_or_of_lt h3, ← Nat.shiftLeft_add_eq_or_of_lt h2, ← Nat.shiftLeft_add_eq_or_of_lt h1]
  simp only [Nat.shiftLeft_eq]
  omega

end Sys2Proof.Machine
end

