-- ==== Sys2Proof/Laws/State.lean ====
section
/-! SUPPORT. One lemma per field of State per named operation, true by rfl, so that no later proof unfolds a record
update. -/

namespace Sys2Proof.Machine

variable (s : State)

section rejectFields
variable (e : ErrCode)
@[simp] theorem reject_key : (reject e s).key = s.key := rfl
@[simp] theorem reject_keyv : (reject e s).keyv = s.keyv := rfl
@[simp] theorem reject_data : (reject e s).data = s.data := rfl
@[simp] theorem reject_datav : (reject e s).datav = s.datav := rfl
@[simp] theorem reject_rk : (reject e s).rk = s.rk := rfl
@[simp] theorem reject_rkv : (reject e s).rkv = s.rkv := rfl
@[simp] theorem reject_busy : (reject e s).busy = s.busy := rfl
@[simp] theorem reject_done : (reject e s).done = s.done := rfl
@[simp] theorem reject_err : (reject e s).err = true := rfl
@[simp] theorem reject_errcode : (reject e s).errcode = e.code := rfl
@[simp] theorem reject_pend : (reject e s).pend = s.pend := rfl
@[simp] theorem reject_turns : (reject e s).turns = s.turns := rfl
@[simp] theorem reject_reads : (reject e s).reads = s.reads := rfl
@[simp] theorem reject_draws : (reject e s).draws = s.draws := rfl
@[simp] theorem reject_number : (reject e s).number = s.number := rfl
end rejectFields

section writeStatusFields
variable (v : Word)
@[simp] theorem writeStatus_key : (writeStatus v s).key = s.key := rfl
@[simp] theorem writeStatus_keyv : (writeStatus v s).keyv = s.keyv := rfl
@[simp] theorem writeStatus_data : (writeStatus v s).data = s.data := rfl
@[simp] theorem writeStatus_datav : (writeStatus v s).datav = s.datav := rfl
@[simp] theorem writeStatus_rk : (writeStatus v s).rk = s.rk := rfl
@[simp] theorem writeStatus_rkv : (writeStatus v s).rkv = s.rkv := rfl
@[simp] theorem writeStatus_busy : (writeStatus v s).busy = s.busy := rfl
@[simp] theorem writeStatus_done : (writeStatus v s).done = if v[1] then false else s.done := rfl
@[simp] theorem writeStatus_err : (writeStatus v s).err = if v[2] then false else s.err := rfl
@[simp] theorem writeStatus_errcode : (writeStatus v s).errcode = if v[2] then 0 else s.errcode := rfl
@[simp] theorem writeStatus_pend : (writeStatus v s).pend = s.pend := rfl
@[simp] theorem writeStatus_turns : (writeStatus v s).turns = s.turns := rfl
@[simp] theorem writeStatus_reads : (writeStatus v s).reads = s.reads := rfl
@[simp] theorem writeStatus_draws : (writeStatus v s).draws = s.draws := rfl
@[simp] theorem writeStatus_number : (writeStatus v s).number = s.number := rfl
end writeStatusFields

section acceptFields
variable (p : Pending)
@[simp] theorem accept_key : (accept p s).key = s.key := rfl
@[simp] theorem accept_keyv : (accept p s).keyv = s.keyv := rfl
@[simp] theorem accept_data : (accept p s).data = s.data := rfl
@[simp] theorem accept_datav : (accept p s).datav = s.datav := rfl
@[simp] theorem accept_rk : (accept p s).rk = s.rk := rfl
@[simp] theorem accept_rkv : (accept p s).rkv = s.rkv := rfl
@[simp] theorem accept_busy : (accept p s).busy = true := rfl
@[simp] theorem accept_done : (accept p s).done = false := rfl
@[simp] theorem accept_err : (accept p s).err = s.err := rfl
@[simp] theorem accept_errcode : (accept p s).errcode = s.errcode := rfl
@[simp] theorem accept_pend : (accept p s).pend = some p := rfl
@[simp] theorem accept_turns : (accept p s).turns = s.turns := rfl
@[simp] theorem accept_reads : (accept p s).reads = s.reads := rfl
@[simp] theorem accept_draws : (accept p s).draws = s.draws := rfl
@[simp] theorem accept_number : (accept p s).number = s.number := rfl
end acceptFields

section finishFields
@[simp] theorem finish_key : (finish s).key = s.key := rfl
@[simp] theorem finish_keyv : (finish s).keyv = s.keyv := rfl
@[simp] theorem finish_data : (finish s).data = s.data := rfl
@[simp] theorem finish_datav : (finish s).datav = s.datav := rfl
@[simp] theorem finish_rk : (finish s).rk = s.rk := rfl
@[simp] theorem finish_rkv : (finish s).rkv = s.rkv := rfl
@[simp] theorem finish_busy : (finish s).busy = false := rfl
@[simp] theorem finish_done : (finish s).done = true := rfl
@[simp] theorem finish_err : (finish s).err = s.err := rfl
@[simp] theorem finish_errcode : (finish s).errcode = s.errcode := rfl
@[simp] theorem finish_pend : (finish s).pend = none := rfl
@[simp] theorem finish_turns : (finish s).turns = s.turns := rfl
@[simp] theorem finish_reads : (finish s).reads = s.reads := rfl
@[simp] theorem finish_draws : (finish s).draws = s.draws := rfl
@[simp] theorem finish_number : (finish s).number = s.number := rfl
end finishFields

section storeKeyFields
variable (c : Fin 4) (v : Word)
@[simp] theorem storeKey_key : (storeKey c v s).key = setBlockWord s.key c v := rfl
@[simp] theorem storeKey_keyv : (storeKey c v s).keyv = markWord s.keyv c := rfl
@[simp] theorem storeKey_data : (storeKey c v s).data = s.data := rfl
@[simp] theorem storeKey_datav : (storeKey c v s).datav = s.datav := rfl
@[simp] theorem storeKey_rk : (storeKey c v s).rk = s.rk := rfl
@[simp] theorem storeKey_rkv : (storeKey c v s).rkv = 0 := rfl
@[simp] theorem storeKey_busy : (storeKey c v s).busy = s.busy := rfl
@[simp] theorem storeKey_done : (storeKey c v s).done = s.done := rfl
@[simp] theorem storeKey_err : (storeKey c v s).err = s.err := rfl
@[simp] theorem storeKey_errcode : (storeKey c v s).errcode = s.errcode := rfl
@[simp] theorem storeKey_pend : (storeKey c v s).pend = s.pend := rfl
@[simp] theorem storeKey_turns : (storeKey c v s).turns = s.turns := rfl
@[simp] theorem storeKey_reads : (storeKey c v s).reads = s.reads := rfl
@[simp] theorem storeKey_draws : (storeKey c v s).draws = s.draws := rfl
@[simp] theorem storeKey_number : (storeKey c v s).number = s.number := rfl
end storeKeyFields

section storeDataFields
variable (c : Fin 4) (v : Word)
@[simp] theorem storeData_key : (storeData c v s).key = s.key := rfl
@[simp] theorem storeData_keyv : (storeData c v s).keyv = s.keyv := rfl
@[simp] theorem storeData_data : (storeData c v s).data = setBlockWord s.data c v := rfl
@[simp] theorem storeData_datav : (storeData c v s).datav = markWord s.datav c := rfl
@[simp] theorem storeData_rk : (storeData c v s).rk = s.rk := rfl
@[simp] theorem storeData_rkv : (storeData c v s).rkv = s.rkv := rfl
@[simp] theorem storeData_busy : (storeData c v s).busy = s.busy := rfl
@[simp] theorem storeData_done : (storeData c v s).done = s.done := rfl
@[simp] theorem storeData_err : (storeData c v s).err = s.err := rfl
@[simp] theorem storeData_errcode : (storeData c v s).errcode = s.errcode := rfl
@[simp] theorem storeData_pend : (storeData c v s).pend = s.pend := rfl
@[simp] theorem storeData_turns : (storeData c v s).turns = s.turns := rfl
@[simp] theorem storeData_reads : (storeData c v s).reads = s.reads := rfl
@[simp] theorem storeData_draws : (storeData c v s).draws = s.draws := rfl
@[simp] theorem storeData_number : (storeData c v s).number = s.number := rfl
end storeDataFields

section setDataFields
variable (b : Block)
@[simp] theorem setData_key : (setData b s).key = s.key := rfl
@[simp] theorem setData_keyv : (setData b s).keyv = s.keyv := rfl
@[simp] theorem setData_data : (setData b s).data = b := rfl
@[simp] theorem setData_datav : (setData b s).datav = s.datav := rfl
@[simp] theorem setData_rk : (setData b s).rk = s.rk := rfl
@[simp] theorem setData_rkv : (setData b s).rkv = s.rkv := rfl
@[simp] theorem setData_busy : (setData b s).busy = s.busy := rfl
@[simp] theorem setData_done : (setData b s).done = s.done := rfl
@[simp] theorem setData_err : (setData b s).err = s.err := rfl
@[simp] theorem setData_errcode : (setData b s).errcode = s.errcode := rfl
@[simp] theorem setData_pend : (setData b s).pend = s.pend := rfl
@[simp] theorem setData_turns : (setData b s).turns = s.turns := rfl
@[simp] theorem setData_reads : (setData b s).reads = s.reads := rfl
@[simp] theorem setData_draws : (setData b s).draws = s.draws := rfl
@[simp] theorem setData_number : (setData b s).number = s.number := rfl
end setDataFields

section setEntryFields
variable (r : Fin 10) (b : Block)
@[simp] theorem setEntry_key : (setEntry r b s).key = s.key := rfl
@[simp] theorem setEntry_keyv : (setEntry r b s).keyv = s.keyv := rfl
@[simp] theorem setEntry_data : (setEntry r b s).data = s.data := rfl
@[simp] theorem setEntry_datav : (setEntry r b s).datav = s.datav := rfl
@[simp] theorem setEntry_rk : (setEntry r b s).rk = s.rk.set r.val b := rfl
@[simp] theorem setEntry_rkv : (setEntry r b s).rkv = markEntry s.rkv r := rfl
@[simp] theorem setEntry_busy : (setEntry r b s).busy = s.busy := rfl
@[simp] theorem setEntry_done : (setEntry r b s).done = s.done := rfl
@[simp] theorem setEntry_err : (setEntry r b s).err = s.err := rfl
@[simp] theorem setEntry_errcode : (setEntry r b s).errcode = s.errcode := rfl
@[simp] theorem setEntry_pend : (setEntry r b s).pend = s.pend := rfl
@[simp] theorem setEntry_turns : (setEntry r b s).turns = s.turns := rfl
@[simp] theorem setEntry_reads : (setEntry r b s).reads = s.reads := rfl
@[simp] theorem setEntry_draws : (setEntry r b s).draws = s.draws := rfl
@[simp] theorem setEntry_number : (setEntry r b s).number = s.number := rfl
end setEntryFields

section setScheduleFields
variable (S : Schedule)
@[simp] theorem setSchedule_key : (setSchedule S s).key = s.key := rfl
@[simp] theorem setSchedule_keyv : (setSchedule S s).keyv = s.keyv := rfl
@[simp] theorem setSchedule_data : (setSchedule S s).data = s.data := rfl
@[simp] theorem setSchedule_datav : (setSchedule S s).datav = s.datav := rfl
@[simp] theorem setSchedule_rk : (setSchedule S s).rk = S := rfl
@[simp] theorem setSchedule_rkv : (setSchedule S s).rkv = 0x3FF := rfl
@[simp] theorem setSchedule_busy : (setSchedule S s).busy = s.busy := rfl
@[simp] theorem setSchedule_done : (setSchedule S s).done = s.done := rfl
@[simp] theorem setSchedule_err : (setSchedule S s).err = s.err := rfl
@[simp] theorem setSchedule_errcode : (setSchedule S s).errcode = s.errcode := rfl
@[simp] theorem setSchedule_pend : (setSchedule S s).pend = s.pend := rfl
@[simp] theorem setSchedule_turns : (setSchedule S s).turns = s.turns := rfl
@[simp] theorem setSchedule_reads : (setSchedule S s).reads = s.reads := rfl
@[simp] theorem setSchedule_draws : (setSchedule S s).draws = s.draws := rfl
@[simp] theorem setSchedule_number : (setSchedule S s).number = s.number := rfl
end setScheduleFields

section withTurnsFields
variable (ts : List Turn)
@[simp] theorem withTurns_key : (withTurns ts s).key = s.key := rfl
@[simp] theorem withTurns_keyv : (withTurns ts s).keyv = s.keyv := rfl
@[simp] theorem withTurns_data : (withTurns ts s).data = s.data := rfl
@[simp] theorem withTurns_datav : (withTurns ts s).datav = s.datav := rfl
@[simp] theorem withTurns_rk : (withTurns ts s).rk = s.rk := rfl
@[simp] theorem withTurns_rkv : (withTurns ts s).rkv = s.rkv := rfl
@[simp] theorem withTurns_busy : (withTurns ts s).busy = s.busy := rfl
@[simp] theorem withTurns_done : (withTurns ts s).done = s.done := rfl
@[simp] theorem withTurns_err : (withTurns ts s).err = s.err := rfl
@[simp] theorem withTurns_errcode : (withTurns ts s).errcode = s.errcode := rfl
@[simp] theorem withTurns_pend : (withTurns ts s).pend = s.pend := rfl
@[simp] theorem withTurns_turns : (withTurns ts s).turns = ts := rfl
@[simp] theorem withTurns_reads : (withTurns ts s).reads = s.reads := rfl
@[simp] theorem withTurns_draws : (withTurns ts s).draws = s.draws := rfl
@[simp] theorem withTurns_number : (withTurns ts s).number = s.number := rfl
end withTurnsFields

section resetCoreFields
@[simp] theorem resetCore_key : (resetCore s).key = State.reset.key := rfl
@[simp] theorem resetCore_keyv : (resetCore s).keyv = State.reset.keyv := rfl
@[simp] theorem resetCore_data : (resetCore s).data = State.reset.data := rfl
@[simp] theorem resetCore_datav : (resetCore s).datav = State.reset.datav := rfl
@[simp] theorem resetCore_rk : (resetCore s).rk = State.reset.rk := rfl
@[simp] theorem resetCore_rkv : (resetCore s).rkv = State.reset.rkv := rfl
@[simp] theorem resetCore_busy : (resetCore s).busy = State.reset.busy := rfl
@[simp] theorem resetCore_done : (resetCore s).done = State.reset.done := rfl
@[simp] theorem resetCore_err : (resetCore s).err = State.reset.err := rfl
@[simp] theorem resetCore_errcode : (resetCore s).errcode = State.reset.errcode := rfl
@[simp] theorem resetCore_pend : (resetCore s).pend = State.reset.pend := rfl
@[simp] theorem resetCore_turns : (resetCore s).turns = s.turns := rfl
@[simp] theorem resetCore_reads : (resetCore s).reads = s.reads := rfl
@[simp] theorem resetCore_draws : (resetCore s).draws = s.draws := rfl
@[simp] theorem resetCore_number : (resetCore s).number = s.number := rfl
end resetCoreFields

section hostReadFields
variable (w : Widx)
@[simp] theorem hostRead_key : (hostRead w s).key = s.key := rfl
@[simp] theorem hostRead_keyv : (hostRead w s).keyv = s.keyv := rfl
@[simp] theorem hostRead_data : (hostRead w s).data = s.data := rfl
@[simp] theorem hostRead_datav : (hostRead w s).datav = s.datav := rfl
@[simp] theorem hostRead_rk : (hostRead w s).rk = s.rk := rfl
@[simp] theorem hostRead_rkv : (hostRead w s).rkv = s.rkv := rfl
@[simp] theorem hostRead_busy : (hostRead w s).busy = s.busy := rfl
@[simp] theorem hostRead_done : (hostRead w s).done = s.done := rfl
@[simp] theorem hostRead_err : (hostRead w s).err = s.err := rfl
@[simp] theorem hostRead_errcode : (hostRead w s).errcode = s.errcode := rfl
@[simp] theorem hostRead_pend : (hostRead w s).pend = s.pend := rfl
@[simp] theorem hostRead_turns : (hostRead w s).turns = s.turns := rfl
@[simp] theorem hostRead_reads : (hostRead w s).reads = ⟨w, busRead w s⟩ :: s.reads := rfl
@[simp] theorem hostRead_draws : (hostRead w s).draws = if readDraws w s then s.draws + 1 else s.draws := rfl
@[simp] theorem hostRead_number : (hostRead w s).number = s.number := rfl
end hostReadFields

end Sys2Proof.Machine
end

