-- ==== Sys2Proof/Laws/Bus.lean ====
section
/-! SUPPORT. Lemmas about the host bus: the address map both ways, the words of a Block, reads and writes. -/

namespace Sys2Proof.Machine

/-! ### The address map -/

theorem offsetOf_widxOf (off : Nat) (h4 : off % 4 = 0) (h : off < 4096) : offsetOf (widxOf off) = off := by
  simp only [offsetOf, widxOf, BitVec.toNat_ofNat]
  omega

theorem widxOf_offsetOf (w : Widx) : widxOf (offsetOf w) = w := by
  apply BitVec.eq_of_toNat_eq
  have := w.isLt
  simp only [offsetOf, widxOf, BitVec.toNat_ofNat]
  omega

/-- Which region a word is in, by its offset: the map of 20_memory.md R52. -/
theorem region_cases (w : Widx) :
    (offsetOf w = 0x000 ∧ region w = .id) ∨ (offsetOf w = 0x004 ∧ region w = .status) ∨
    (offsetOf w = 0x008 ∧ region w = .valid) ∨ (offsetOf w = 0x00C ∧ region w = .cmd) ∨
    (∃ c : Fin 4, offsetOf w = 0x010 + 4 * c.val ∧ region w = .key c) ∨
    (∃ c : Fin 4, offsetOf w = 0x020 + 4 * c.val ∧ region w = .data c) ∨
    (∃ (r : Fin 10) (c : Fin 4), offsetOf w = 0x100 + 16 * r.val + 4 * c.val ∧ region w = .rk r c) ∨
    (∃ v : Byte, offsetOf w = 0x400 + 4 * v.toNat ∧ region w = .sbox v) ∨
    (∃ i : Fin 10, offsetOf w = 0x800 + 4 * i.val ∧ region w = .rcon i) ∨
    ((0x030 ≤ offsetOf w ∧ offsetOf w ≤ 0x0FC ∨ 0x1A0 ≤ offsetOf w ∧ offsetOf w ≤ 0x3FC ∨ 0x828 ≤ offsetOf w) ∧
      region w = .reserved) := by
  have h4 : offsetOf w % 4 = 0 := by simp [offsetOf]
  have hlt : offsetOf w < 4096 := by have := w.isLt; simp only [offsetOf]; omega
  unfold region
  generalize offsetOf w = off at *
  generalize hr : regionAt off = r
  unfold regionAt at hr
  split_ifs at hr with h1 h2 h3 h5 h6 h7 h8 h9 h10 <;> subst hr
  · exact .inl ⟨h1, rfl⟩
  · exact .inr (.inl ⟨h2, rfl⟩)
  · exact .inr (.inr (.inl ⟨h3, rfl⟩))
  · exact .inr (.inr (.inr (.inl ⟨h5, rfl⟩)))
  · exact .inr (.inr (.inr (.inr (.inl ⟨_, by dsimp; omega, rfl⟩))))
  · exact .inr (.inr (.inr (.inr (.inr (.inl ⟨_, by dsimp; omega, rfl⟩)))))
  · exact .inr (.inr (.inr (.inr (.inr (.inr (.inl ⟨_, _, by dsimp; omega, rfl⟩))))))
  · refine .inr (.inr (.inr (.inr (.inr (.inr (.inr (.inl ⟨_, ?_, rfl⟩)))))))
    rw [BitVec.toNat_ofNat]
    omega
  · exact .inr (.inr (.inr (.inr (.inr (.inr (.inr (.inr (.inl ⟨_, by dsimp; omega, rfl⟩))))))))
  · exact .inr (.inr (.inr (.inr (.inr (.inr (.inr (.inr (.inr ⟨by omega, rfl⟩))))))))

theorem region_id : region (widxOf 0x000) = .id := by decide
theorem region_status : region (widxOf 0x004) = .status := by decide
theorem region_valid : region (widxOf 0x008) = .valid := by decide
theorem region_cmd : region (widxOf 0x00C) = .cmd := by decide
theorem region_cmdWidx : region cmdWidx = .cmd := by decide
theorem region_statusWidx : region statusWidx = .status := by decide
theorem region_key (c : Fin 4) : region (widxOf (0x010 + 4 * c.val)) = .key c := by revert c; decide
theorem region_data (c : Fin 4) : region (widxOf (0x020 + 4 * c.val)) = .data c := by revert c; decide
theorem region_rk (r : Fin 10) (c : Fin 4) : region (widxOf (0x100 + 16 * r.val + 4 * c.val)) = .rk r c := by
  revert r c; decide +kernel
theorem region_sbox (v : Byte) : region (widxOf (0x400 + 4 * v.toNat)) = .sbox v := by revert v; decide +kernel
theorem region_rcon (i : Fin 10) : region (widxOf (0x800 + 4 * i.val)) = .rcon i := by revert i; decide

/-- A word of a region that is a register is the word of that register's offset. -/
theorem widx_of_status {w : Widx} (h : region w = .status) : w = widxOf 0x004 := by
  rw [← widxOf_offsetOf w]
  rcases region_cases w with h' | h' | h' | h' | ⟨c, h'⟩ | ⟨c, h'⟩ | ⟨r, c, h'⟩ | ⟨v, h'⟩ | ⟨i, h'⟩ | h' <;>
    simp_all

theorem widx_of_cmd {w : Widx} (h : region w = .cmd) : w = widxOf 0x00C := by
  rw [← widxOf_offsetOf w]
  rcases region_cases w with h' | h' | h' | h' | ⟨c, h'⟩ | ⟨c, h'⟩ | ⟨r, c, h'⟩ | ⟨v, h'⟩ | ⟨i, h'⟩ | h' <;>
    simp_all

theorem widx_of_key {w : Widx} {c : Fin 4} (h : region w = .key c) : w = widxOf (0x010 + 4 * c.val) := by
  rw [← widxOf_offsetOf w]
  rcases region_cases w with h' | h' | h' | h' | ⟨c, h'⟩ | ⟨c, h'⟩ | ⟨r, c, h'⟩ | ⟨v, h'⟩ | ⟨i, h'⟩ | h' <;>
    simp_all

theorem widx_of_data {w : Widx} {c : Fin 4} (h : region w = .data c) : w = widxOf (0x020 + 4 * c.val) := by
  rw [← widxOf_offsetOf w]
  rcases region_cases w with h' | h' | h' | h' | ⟨c, h'⟩ | ⟨c, h'⟩ | ⟨r, c, h'⟩ | ⟨v, h'⟩ | ⟨i, h'⟩ | h' <;>
    simp_all

theorem widx_of_offset {w : Widx} {n : Nat} (h : offsetOf w = n) : w = widxOf n := by
  rw [← h, widxOf_offsetOf]

/-- The offsets of R52 that it does not list are reserved. -/
theorem region_reserved {w : Widx} (h : (0x030 ≤ offsetOf w ∧ offsetOf w ≤ 0x0FC) ∨
    (0x1A0 ≤ offsetOf w ∧ offsetOf w ≤ 0x3FC) ∨ 0x828 ≤ offsetOf w) : region w = .reserved := by
  rcases region_cases w with h' | h' | h' | h' | ⟨c, h'⟩ | ⟨c, h'⟩ | ⟨r, c, h'⟩ | ⟨v, h'⟩ | ⟨i, h'⟩ | h'
  · omega
  · omega
  · omega
  · omega
  · omega
  · omega
  · omega
  · have := v.isLt; omega
  · omega
  · exact h'.2

/-! ### The words of a Block -/

theorem unpack_toNat (v : Word) : v.toNat = (unpack v)[0].toNat * 2 ^ 24 + (unpack v)[1].toNat * 2 ^ 16 +
    (unpack v)[2].toNat * 2 ^ 8 + (unpack v)[3].toNat := by
  have := v.isLt
  simp [unpack, BitVec.extractLsb'_toNat, Nat.shiftRight_eq_div_pow]
  omega

/-- The word that was stored is the word that stands there. -/
theorem blockWord_setBlockWord_self (b : Block) (c : Fin 4) (v : Word) : blockWord (setBlockWord b c v) c = v := by
  apply BitVec.eq_of_toNat_eq
  rw [blockWord_toNat, unpack_toNat v]
  simp only [getElem_setBlockWord]
  have h0 : (4 * c.val) / 4 = c.val ∧ (4 * c.val) % 4 = 0 := by omega
  have h1 : (4 * c.val + 1) / 4 = c.val ∧ (4 * c.val + 1) % 4 = 1 := by omega
  have h2 : (4 * c.val + 2) / 4 = c.val ∧ (4 * c.val + 2) % 4 = 2 := by omega
  have h3 : (4 * c.val + 3) / 4 = c.val ∧ (4 * c.val + 3) % 4 = 3 := by omega
  simp only [h0.1, h1.1, h2.1, h3.1, if_true, h0.2, h1.2, h2.2, h3.2]

/-- The other words stay. -/
theorem blockWord_setBlockWord_ne (b : Block) (c c' : Fin 4) (v : Word) (h : c' ≠ c) :
    blockWord (setBlockWord b c v) c' = blockWord b c' := by
  have hne : c'.val ≠ c.val := fun e => h (Fin.ext e)
  apply BitVec.eq_of_toNat_eq
  rw [blockWord_toNat, blockWord_toNat]
  simp only [getElem_setBlockWord]
  have h0 : (4 * c'.val) / 4 = c'.val := by omega
  have h1 : (4 * c'.val + 1) / 4 = c'.val := by omega
  have h2 : (4 * c'.val + 2) / 4 = c'.val := by omega
  have h3 : (4 * c'.val + 3) / 4 = c'.val := by omega
  simp only [h0, h1, h2, h3, if_neg hne]

theorem setBlockWord_idem (b : Block) (c : Fin 4) (v : Word) :
    setBlockWord (setBlockWord b c v) c v = setBlockWord b c v := by
  apply block_ext
  intro i
  simp only [Fin.getElem_fin, getElem_setBlockWord]
  split <;> rfl

/-! ### The bits of the masks -/

theorem getElem_markWord (m : BitVec 4) (c d : Fin 4) :
    (markWord m c)[d.val] = (m[d.val] || decide (d = c)) := by
  revert m c d; decide +kernel

theorem markWord_idem (m : BitVec 4) (c : Fin 4) : markWord (markWord m c) c = markWord m c := by
  revert m c; decide +kernel

theorem getElem_markEntry (m : BitVec 10) (r q : Fin 10) :
    (markEntry m r)[q.val] = (m[q.val] || decide (q = r)) := by
  rw [markEntry, BitVec.getElem_or]
  congr 1
  revert r q; decide +kernel

/-! ### STATUS and VALID as numbers -/

theorem statusWord_toNat (s : State) : (statusWord s).toNat =
    16 * s.errcode.toNat + 4 * s.err.toNat + 2 * s.done.toNat + s.busy.toNat := by
  have h : ∀ (e : BitVec 4) (a b c : Bool),
      (0#24 ++ e ++ 0#1 ++ BitVec.ofBool a ++ BitVec.ofBool b ++ BitVec.ofBool c
        : BitVec (24 + 4 + 1 + 1 + 1 + 1)).toNat = 16 * e.toNat + 4 * a.toNat + 2 * b.toNat + c.toNat := by
    decide +kernel
  exact h _ _ _ _

theorem validWord_toNat (e : BitVec 10) (s : State) :
    (validWord e s).toNat = 256 * e.toNat + 16 * s.datav.toNat + s.keyv.toNat := by
  simp only [validWord, BitVec.toNat_append]
  rw [← Nat.shiftLeft_add_eq_or_of_lt s.keyv.isLt, ← Nat.shiftLeft_add_eq_or_of_lt s.datav.isLt,
    ← Nat.shiftLeft_add_eq_or_of_lt e.isLt]
  simp only [Nat.shiftLeft_eq, BitVec.toNat_ofNat]
  omega

/-! ### Reads -/

@[simp] theorem busyView_draws (s : State) : (busyView s).draws = s.draws := rfl
@[simp] theorem busyView_number (s : State) : (busyView s).number = s.number := rfl
@[simp] theorem busyView_withTurns (ts : List Turn) (s : State) : busyView (withTurns ts s) = busyView s := rfl

/-- What a read returns does not depend on the turns to come. -/
@[simp] theorem busRead_withTurns (w : Widx) (ts : List Turn) (s : State) :
    busRead w (withTurns ts s) = busRead w s := rfl

/-- Two free reads of one core, one after the other, are draws for different states, so they need not agree
(20_memory.md R62). -/
theorem busyView_hostRead_ne (w : Widx) (s : State) (h : readDraws w s = true) :
    busyView (hostRead w s) ≠ busyView s := by
  intro he
  have := congrArg State.draws he
  simp [h] at this

/-- Nor are two free reads of cores with different numbers draws for one state (60_exceptions.md R185). -/
theorem busyView_ne_of_number {s t : State} (h : s.number ≠ t.number) : busyView s ≠ busyView t :=
  fun he => h (by simpa using congrArg State.number he)

/-! ### Writes -/

/-- Everything a host write can do, by the region it falls on (20_memory.md R64). -/
theorem busWrite_cases (w : Widx) (v : Word) (s : State) :
    (region w = .status ∧ busWrite w v s = writeStatus v s) ∨
    (region w = .cmd ∧ busWrite w v s = issueCommand v s) ∨
    (∃ c, region w = .key c ∧ busWrite w v s = writeKey c v s) ∨
    (∃ c, region w = .data c ∧ busWrite w v s = writeData c v s) ∨
    (region w ≠ .status ∧ region w ≠ .cmd ∧ (∀ c, region w ≠ .key c) ∧ (∀ c, region w ≠ .data c) ∧
      busWrite w v s = reject .addr s) := by
  unfold busWrite
  cases region w <;> simp

/-- A write to an offset of KEY0..KEY3 or DATA0..DATA3 is a key write or a data write (20_memory.md R64). -/
theorem busWrite_key_or_data {w : Widx} (v : Word) (s : State) (h : 0x010 ≤ offsetOf w ∧ offsetOf w ≤ 0x02C) :
    (∃ c, region w = .key c ∧ w = widxOf (0x010 + 4 * c.val) ∧ busWrite w v s = writeKey c v s) ∨
    (∃ c, region w = .data c ∧ w = widxOf (0x020 + 4 * c.val) ∧ busWrite w v s = writeData c v s) := by
  unfold busWrite
  rcases region_cases w with h' | h' | h' | h' | ⟨c, h'⟩ | ⟨c, h'⟩ | ⟨r, c, h'⟩ | ⟨v, h'⟩ | ⟨i, h'⟩ | h'
  · omega
  · omega
  · omega
  · omega
  · exact .inl ⟨c, h'.2, widx_of_key h'.2, by rw [h'.2]⟩
  · exact .inr ⟨c, h'.2, widx_of_data h'.2, by rw [h'.2]⟩
  · omega
  · omega
  · omega
  · omega

/-- A write anywhere else than STATUS, CMD, KEY0..KEY3 and DATA0..DATA3 is rejected with ADDR (20_memory.md R65). -/
theorem busWrite_addr {w : Widx} (v : Word) (s : State) (h1 : offsetOf w ≠ 0x004) (h2 : offsetOf w ≠ 0x00C)
    (h3 : ¬ (0x010 ≤ offsetOf w ∧ offsetOf w ≤ 0x02C)) : busWrite w v s = reject .addr s := by
  rcases busWrite_cases w v s with ⟨h, _⟩ | ⟨h, _⟩ | ⟨c, h, _⟩ | ⟨c, h, _⟩ | ⟨_, _, _, _, h⟩
  · rw [widx_of_status h] at h1; exact absurd rfl h1
  · rw [widx_of_cmd h] at h2; exact absurd rfl h2
  · rw [widx_of_key h, offsetOf_widxOf _ (by omega) (by omega)] at h3; omega
  · rw [widx_of_data h, offsetOf_widxOf _ (by omega) (by omega)] at h3; omega
  · exact h

/-- Everything a write to CMD can do (30_encoding.md R86). -/
theorem issueCommand_cases (v : Word) (s : State) :
    (s.busy = true ∧ issueCommand v s = reject .busy s) ∨
    (∃ e, s.busy = false ∧ check v s = some e ∧ issueCommand v s = reject e s) ∨
    (s.busy = false ∧ check v s = none ∧ issueCommand v s = accept ⟨opOf v, argOf v⟩ s) := by
  unfold issueCommand
  cases hb : s.busy
  · cases hc : check v s with
    | none => exact .inr (.inr ⟨rfl, rfl, by simp⟩)
    | some e => exact .inr (.inl ⟨e, rfl, rfl, by simp⟩)
  · exact .inl ⟨rfl, by simp⟩

/-- Everything a host write can do, by its outcome: it is rejected, or it has the one effect of its register
(20_memory.md R64; 60_exceptions.md R171). -/
theorem busWrite_outcomes (w : Widx) (v : Word) (s : State) :
    (∃ e, busWrite w v s = reject e s) ∨
    (w = widxOf 0x004 ∧ busWrite w v s = writeStatus v s) ∨
    (w = widxOf 0x00C ∧ s.busy = false ∧ check v s = none ∧ busWrite w v s = accept ⟨opOf v, argOf v⟩ s) ∨
    (∃ c : Fin 4, w = widxOf (0x010 + 4 * c.val) ∧ s.busy = false ∧ busWrite w v s = storeKey c v s) ∨
    (∃ c : Fin 4, w = widxOf (0x020 + 4 * c.val) ∧ s.busy = false ∧ busWrite w v s = storeData c v s) := by
  rcases busWrite_cases w v s with ⟨hr, h⟩ | ⟨hr, h⟩ | ⟨c, hr, h⟩ | ⟨c, hr, h⟩ | ⟨_, _, _, _, h⟩ <;> rw [h]
  · exact .inr (.inl ⟨widx_of_status hr, rfl⟩)
  · rcases issueCommand_cases v s with ⟨_, h'⟩ | ⟨e, _, _, h'⟩ | ⟨hb, hc, h'⟩ <;> rw [h']
    · exact .inl ⟨_, rfl⟩
    · exact .inl ⟨_, rfl⟩
    · exact .inr (.inr (.inl ⟨widx_of_cmd hr, hb, hc, rfl⟩))
  · cases hb : s.busy <;> simp only [writeKey, hb, if_true, Bool.false_eq_true, if_false]
    · exact .inr (.inr (.inr (.inl ⟨c, widx_of_key hr, trivial, rfl⟩)))
    · exact .inl ⟨_, rfl⟩
  · cases hb : s.busy <;> simp only [writeData, hb, if_true, Bool.false_eq_true, if_false]
    · exact .inr (.inr (.inr (.inr ⟨c, widx_of_data hr, trivial, rfl⟩)))
    · exact .inl ⟨_, rfl⟩
  · exact .inl ⟨_, rfl⟩

/-- A word that passes the check is a command that the state is ready for (30_encoding.md R85). -/
theorem check_none {v : Word} {s : State} (h : check v s = none) :
    ∃ i, decode v = .ok i ∧ checkState i s = none := by
  unfold check at h
  cases hd : decode v with
  | error e => simp [hd] at h
  | ok i => exact ⟨i, rfl, by simpa [hd] using h⟩

/-- The check of a legal word is the check of its command's preconditions (30_encoding.md R85). -/
theorem check_of_decode {v : Word} {i : Instr} (h : decode v = .ok i) (s : State) : check v s = checkState i s := by
  simp [check, h]

/-- The preconditions depend on the three masks only (30_encoding.md R84). -/
theorem checkState_congr {s t : State} (i : Instr) (hk : t.keyv = s.keyv) (hd : t.datav = s.datav)
    (hr : t.rkv = s.rkv) : checkState i t = checkState i s := by
  simp only [checkState, hk, hd, hr]

theorem check_congr {s t : State} (v : Word) (hk : t.keyv = s.keyv) (hd : t.datav = s.datav)
    (hr : t.rkv = s.rkv) : check v t = check v s := by
  unfold check
  split
  · rfl
  · exact checkState_congr _ hk hd hr

end Sys2Proof.Machine
end

