-- ==== Sys2Proof/Laws/Decode.lean ====
section
/-! SUPPORT. Lemmas about the fields of command words and about decoding. -/

namespace Sys2Proof

@[simp] theorem opOf_toNat (v : Word) : (opOf v).toNat = v.toNat % 256 := by
  simp [opOf, BitVec.extractLsb'_toNat]

@[simp] theorem argOf_toNat (v : Word) : (argOf v).toNat = v.toNat / 256 % 16 := by
  simp [argOf, BitVec.extractLsb'_toNat, Nat.shiftRight_eq_div_pow]

theorem rsvOf_toNat (v : Word) : (rsvOf v).toNat = v.toNat / 4096 := by
  have := v.isLt
  simp [rsvOf, BitVec.extractLsb'_toNat, Nat.shiftRight_eq_div_pow]
  omega

theorem rsvOf_eq_zero (v : Word) : rsvOf v = 0 ↔ v.toNat / 4096 = 0 := by
  rw [← rsvOf_toNat, ← BitVec.toNat_inj]
  rfl

theorem commandWord_toNat (op : Opcode) (arg : Arg) :
    (commandWord op arg).toNat = 256 * arg.toNat + op.toNat := by
  have h : ∀ (op : Opcode) (arg : Arg), (commandWord op arg).toNat = 256 * arg.toNat + op.toNat := by
    decide +kernel
  exact h op arg

@[simp] theorem opOf_commandWord (op : Opcode) (arg : Arg) : opOf (commandWord op arg) = op := by
  have := op.isLt
  apply BitVec.eq_of_toNat_eq
  rw [opOf_toNat, commandWord_toNat]
  omega

@[simp] theorem argOf_commandWord (op : Opcode) (arg : Arg) : argOf (commandWord op arg) = arg := by
  have := op.isLt
  have := arg.isLt
  apply BitVec.eq_of_toNat_eq
  rw [argOf_toNat, commandWord_toNat]
  omega

@[simp] theorem rsvOf_commandWord (op : Opcode) (arg : Arg) : rsvOf (commandWord op arg) = 0 := by
  have := op.isLt
  have := arg.isLt
  rw [rsvOf_eq_zero, commandWord_toNat]
  omega

/-- A word without reserved bits is made of its two fields. -/
theorem eq_commandWord (v : Word) (h : rsvOf v = 0) : v = commandWord (opOf v) (argOf v) := by
  rw [rsvOf_eq_zero] at h
  apply BitVec.eq_of_toNat_eq
  rw [commandWord_toNat, opOf_toNat, argOf_toNat]
  omega

/-- Decoding says which fields a legal pair has, and that its command is well formed. -/
theorem decodeFields_ok {op : Opcode} {arg : Arg} {i : Instr} (h : decodeFields op arg = .ok i) :
    i.wf = true ∧ op = i.opcode ∧ arg = i.operand := by
  unfold decodeFields decodePlain decodeRanged at h
  split at h <;> rename_i hop <;> (try split at h) <;> simp_all <;> subst h <;>
    simp_all [Instr.wf, Instr.opcode, Instr.operand] <;> apply BitVec.eq_of_toNat_eq <;> simpa using hop

/-- A legal word has no reserved bits, and its fields name its command. -/
theorem decode_ok {v : Word} {i : Instr} (h : decode v = .ok i) :
    rsvOf v = 0 ∧ decodeFields (opOf v) (argOf v) = .ok i := by
  unfold decode at h
  split at h
  · cases h
  · exact ⟨not_not.mp ‹_›, h⟩

/-- The fields of a legal word are the OP and the operand of its command. -/
theorem decode_ok_fields {v : Word} {i : Instr} (h : decode v = .ok i) :
    i.wf = true ∧ opOf v = i.opcode ∧ argOf v = i.operand :=
  decodeFields_ok (decode_ok h).2

end Sys2Proof
end

