-- ==== Sys2Proof/Laws/Engine.lean ====
section
/-! SUPPORT. Lemmas about the meanings of the commands and the Engine step. -/

namespace Sys2Proof.Machine

variable (s : State)

/-! ### The key schedule -/

theorem getElem_expandKey (K : Block) (r : Nat) (h : r < 10) : (expandKey K)[r] = expandEntry K r h := by
  simp [expandKey]

theorem expandKey_zero (K : Block) : (expandKey K)[0] = keyRound K 0 := by
  rw [getElem_expandKey]; rfl

theorem expandKey_succ (K : Block) (n : Nat) (h : n + 1 < 10) :
    (expandKey K)[n + 1] = keyRound (expandKey K)[n] ⟨n + 1, h⟩ := by
  rw [getElem_expandKey, getElem_expandKey]; rfl

/-! ### What each command does -/

theorem exec_expandKey : exec .expandKey s = .next (finish (setSchedule (expandKey s.key) s)) := rfl
theorem exec_encrypt : exec .encrypt s = .next (finish (setData (encryptBlock s.key s.rk s.data) s)) := rfl
theorem exec_subBytes : exec .subBytes s = .next (finish (setData (subBytes s.data) s)) := rfl
theorem exec_shiftRows : exec .shiftRows s = .next (finish (setData (shiftRows s.data) s)) := rfl
theorem exec_mixColumns : exec .mixColumns s = .next (finish (setData (mixColumns s.data) s)) := rfl

theorem exec_keyRound (r : Arg) (h : r.toNat < 10) : exec (.keyRound r) s =
    .next (finish (setEntry ⟨r.toNat, h⟩
      (keyRound (roundKey ⟨r.toNat, Nat.lt_succ_of_lt h⟩ s) ⟨r.toNat, h⟩) s)) := by
  simp [exec, execKeyRound, h]

theorem exec_addRoundKey (k : Arg) (h : k.toNat < 11) : exec (.addRoundKey k) s =
    .next (finish (setData (addRoundKey s.data (roundKey ⟨k.toNat, h⟩ s)) s)) := by
  simp [exec, execAddRoundKey, h]

theorem exec_round (j : Arg) (h1 : 1 ≤ j.toNat) (h : j.toNat < 11) : exec (.round j) s =
    .next (finish (setData (cipherRound s.data (roundKey ⟨j.toNat, h⟩ s) j.toNat) s)) := by
  simp [exec, execRound, h1, h]

theorem roundKey_zero (h : 0 < 11) : roundKey ⟨0, h⟩ s = s.key := by simp [roundKey]

theorem roundKey_succ (k : Nat) (h : k + 1 < 11) : roundKey ⟨k + 1, h⟩ s = s.rk[k] := by simp [roundKey]

theorem roundKey_pos (k : Nat) (h : k < 11) (h1 : 1 ≤ k) : roundKey ⟨k, h⟩ s = s.rk[k - 1] := by
  simp [roundKey, show k ≠ 0 by omega]

/-- Everything a command can do when it completes: it derives the whole schedule, or one entry of it, or it writes
DATA; and it finishes. -/
theorem exec_next_cases {i : Instr} {s t : State} (h : exec i s = .next t) :
    (i = .expandKey ∧ t = finish (setSchedule (expandKey s.key) s)) ∨
    (∃ (r : Arg) (hr : r.toNat < 10), i = .keyRound r ∧ t = finish (setEntry ⟨r.toNat, hr⟩
      (keyRound (roundKey ⟨r.toNat, Nat.lt_succ_of_lt hr⟩ s) ⟨r.toNat, hr⟩) s)) ∨
    (∃ b, i ≠ .expandKey ∧ (∀ r, i ≠ .keyRound r) ∧ t = finish (setData b s)) := by
  cases i with
  | expandKey => exact .inl ⟨rfl, by simpa [exec_expandKey] using h.symm⟩
  | keyRound r =>
    by_cases hr : r.toNat < 10
    · rw [exec_keyRound s r hr] at h
      exact .inr (.inl ⟨r, hr, rfl, by simpa using h.symm⟩)
    · simp [exec, execKeyRound, hr] at h
  | addRoundKey k =>
    by_cases hk : k.toNat < 11
    · rw [exec_addRoundKey s k hk] at h
      exact .inr (.inr ⟨_, by simp, by simp, by simpa using h.symm⟩)
    · simp [exec, execAddRoundKey, hk] at h
  | round j =>
    by_cases hj : 1 ≤ j.toNat ∧ j.toNat < 11
    · rw [exec_round s j hj.1 hj.2] at h
      exact .inr (.inr ⟨_, by simp, by simp, by simpa using h.symm⟩)
    · simp [exec, execRound, hj] at h
  | encrypt => exact .inr (.inr ⟨_, by simp, by simp, by simpa [exec_encrypt] using h.symm⟩)
  | subBytes => exact .inr (.inr ⟨_, by simp, by simp, by simpa [exec_subBytes] using h.symm⟩)
  | shiftRows => exact .inr (.inr ⟨_, by simp, by simp, by simpa [exec_shiftRows] using h.symm⟩)
  | mixColumns => exact .inr (.inr ⟨_, by simp, by simp, by simpa [exec_mixColumns] using h.symm⟩)

end Sys2Proof.Machine
end

