-- ==== Sys2Proof/Laws/HostProgram.lean ====
section
/-! SUPPORT. What a host's step does for each act, and that a run of a host and a core is made of the core's own turns. -/

namespace Sys2Proof.Machine

variable (s : State) (rest : List HostAct) (kept : List (String × Word))

@[simp] theorem hostStep_done : hostStep ⟨s, [], kept⟩ = ⟨s, [], kept⟩ := rfl

@[simp] theorem hostStep_write (w : Widx) (v : Word) :
    hostStep ⟨s, .write w v :: rest, kept⟩ = ⟨busWrite w v s, rest, kept⟩ := rfl

@[simp] theorem hostStep_read (w : Widx) :
    hostStep ⟨s, .read w none :: rest, kept⟩ = ⟨hostRead w s, rest, kept⟩ := by
  simp [hostStep]

@[simp] theorem hostStep_read_named (w : Widx) (n : String) :
    hostStep ⟨s, .read w (some n) :: rest, kept⟩ = ⟨hostRead w s, rest, kept ++ [(n, busRead w s)]⟩ := rfl

/-- Bit 0 of what a read of STATUS returns is BUSY (10_state.md R29). -/
theorem busRead_status_busy : (busRead statusWidx s)[0] = s.busy := by
  have h : (statusWord s).toNat.testBit 0 = s.busy := by
    rw [statusWord_toNat, Nat.testBit_zero]
    cases s.busy <;> simp <;> omega
  rw [busRead, region_statusWidx, ← h]
  simp [BitVec.getElem_eq_testBit_toNat]

/-- A poll that finds BUSY = 1 is made again (30_encoding.md R91). -/
theorem hostStep_poll_busy (h : s.busy = true) :
    hostStep ⟨s, .poll :: rest, kept⟩ = ⟨hostRead statusWidx s, .poll :: rest, kept⟩ := by
  simp only [hostStep, busRead_status_busy, h, if_true]

/-- A poll that finds BUSY = 0 ends its WAIT, with this one read (30_encoding.md R91). -/
theorem hostStep_poll_idle (h : s.busy = false) :
    hostStep ⟨s, .poll :: rest, kept⟩ = ⟨hostRead statusWidx s, rest, kept⟩ := by
  simp only [hostStep, busRead_status_busy, h, Bool.false_eq_true, if_false]

/-- Every step of a run of a host and a core leaves the core as it was or is a turn of the core (20_memory.md R70). -/
theorem agentStep_is_turn {a : Agent} {r r' : HostRun} (h : agentStep a r = .next r') :
    r'.core = r.core ∨ ∃ t, takeTurn t r.core = .next r'.core := by
  cases a with
  | host =>
    obtain rfl : hostStep r = r' := by simpa [agentStep] using h
    match r with
    | ⟨s, [], kept⟩ => exact .inl rfl
    | ⟨s, .write w v :: rest, kept⟩ => exact .inr ⟨.host (.write w v), rfl⟩
    | ⟨s, .read w n :: rest, kept⟩ => exact .inr ⟨.host (.read w), rfl⟩
    | ⟨s, .poll :: rest, kept⟩ => exact .inr ⟨.host (.read statusWidx), rfl⟩
  | engine =>
    cases he : engineStep r.core with
    | next t =>
      obtain rfl : { r with core := t } = r' := by simpa [agentStep, he] using h
      exact .inr ⟨.engine, he⟩
    | fault f => simp [agentStep, he] at h
    | refused f => simp [agentStep, he] at h
  | reset =>
    obtain rfl : { r with core := resetCore r.core } = r' := by simpa [agentStep] using h
    exact .inr ⟨.reset, rfl⟩

end Sys2Proof.Machine
end

