-- ==== Sys2Proof/Laws/Step.lean ====
section
/-! SUPPORT. What one step can do, said once: every later proof about steps cites these lemmas and does not unfold the
step function. -/

namespace Sys2Proof.Machine

/-! ### One step, by the turn that is next -/

theorem step_read {s : State} {w : Widx} {rest : List Turn} (h : s.turns = .host (.read w) :: rest) :
    step s = .next (hostRead w (withTurns rest s)) := by
  simp [step, nextTurn, h, takeTurn, hostAccess]

theorem step_write {s : State} {w : Widx} {v : Word} {rest : List Turn}
    (h : s.turns = .host (.write w v) :: rest) : step s = .next (busWrite w v (withTurns rest s)) := by
  simp [step, nextTurn, h, takeTurn, hostAccess]

theorem step_reset {s : State} {rest : List Turn} (h : s.turns = .reset :: rest) :
    step s = .next (resetCore (withTurns rest s)) := by
  simp [step, nextTurn, h, takeTurn]

theorem step_engine {s : State} (h : EngineNext s) : step s = engineStep (withTurns s.turns.tail s) := by
  rcases h with h | ⟨rest, h⟩
  · cases s
    simp only at h
    subst h
    rfl
  · simp [step, nextTurn, h, takeTurn]

theorem engineStep_none {s : State} (h : s.pend = none) : engineStep s = .next s := by
  simp [engineStep, h]

theorem engineStep_some {s : State} {p : Pending} {i : Instr} (hp : s.pend = some p)
    (hi : decodeFields p.op p.arg = .ok i) : engineStep s = exec i s := by
  simp [engineStep, hp, hi]

/-- The turn that is next is a host read, a host write, a reset or the Engine's. -/
theorem turn_cases (s : State) :
    (∃ w rest, s.turns = .host (.read w) :: rest) ∨ (∃ w v rest, s.turns = .host (.write w v) :: rest) ∨
    (∃ rest, s.turns = .reset :: rest) ∨ EngineNext s := by
  match h : s.turns with
  | [] => exact .inr (.inr (.inr (.inl h)))
  | .host (.read w) :: rest => exact .inl ⟨w, rest, rfl⟩
  | .host (.write w v) :: rest => exact .inr (.inl ⟨w, v, rest, rfl⟩)
  | .reset :: rest => exact .inr (.inr (.inl ⟨rest, rfl⟩))
  | .engine :: rest => exact .inr (.inr (.inr (.inr ⟨rest, h⟩)))

/-- Everything a step that goes on can do: a host read, a host write, a reset, an Engine turn with nothing pending, or
the performing of the pending command. -/
theorem step_cases {s t : State} (h : step s = .next t) :
    (∃ w rest, s.turns = .host (.read w) :: rest ∧ t = hostRead w (withTurns rest s)) ∨
    (∃ w v rest, s.turns = .host (.write w v) :: rest ∧ t = busWrite w v (withTurns rest s)) ∨
    (∃ rest, s.turns = .reset :: rest ∧ t = resetCore (withTurns rest s)) ∨
    (EngineNext s ∧ s.pend = none ∧ t = withTurns s.turns.tail s) ∨
    (∃ p i, EngineNext s ∧ s.pend = some p ∧ decodeFields p.op p.arg = .ok i ∧
      exec i (withTurns s.turns.tail s) = .next t) := by
  rcases turn_cases s with ⟨w, rest, hs⟩ | ⟨w, v, rest, hs⟩ | ⟨rest, hs⟩ | he
  · rw [step_read hs] at h
    exact .inl ⟨w, rest, hs, by simpa using h.symm⟩
  · rw [step_write hs] at h
    exact .inr (.inl ⟨w, v, rest, hs, by simpa using h.symm⟩)
  · rw [step_reset hs] at h
    exact .inr (.inr (.inl ⟨rest, hs, by simpa using h.symm⟩))
  · rw [step_engine he] at h
    rcases hp : s.pend with _ | p
    · rw [engineStep_none (by simpa using hp)] at h
      exact .inr (.inr (.inr (.inl ⟨he, rfl, by simpa using h.symm⟩)))
    · cases hd : decodeFields p.op p.arg with
      | error e => simp [engineStep, hp, hd] at h
      | ok i =>
        rw [engineStep_some (by simpa using hp) hd] at h
        exact .inr (.inr (.inr (.inr ⟨p, i, he, rfl, hd, h⟩)))

/-! ### The Engine has the turn: no other agent does -/

theorem not_engineNext_host {s : State} {a : Access} {rest : List Turn} (h : s.turns = .host a :: rest) :
    ¬ EngineNext s := by
  rintro (h' | ⟨r, h'⟩) <;> simp [h] at h'

theorem not_engineNext_reset {s : State} {rest : List Turn} (h : s.turns = .reset :: rest) : ¬ EngineNext s := by
  rintro (h' | ⟨r, h'⟩) <;> simp [h] at h'

theorem engineNext_nil {s : State} (h : s.turns = []) : EngineNext s := .inl h

theorem engineNext_cons {s : State} {rest : List Turn} (h : s.turns = .engine :: rest) : EngineNext s :=
  .inr ⟨rest, h⟩

/-! ### Runs -/

theorem run_zero (s : State) : core.run 0 s = .next s := rfl

theorem run_succ {s t : State} (n : Nat) (h : step s = .next t) : core.run (n + 1) s = core.run n t := by
  have h' : core.step s = .next t := h
  simp only [Host.Core.run]
  rw [h']

/-- A run of one step more is the step and then the run. -/
theorem run_succ_next {s t : State} {n : Nat} (h : core.run (n + 1) s = .next t) :
    ∃ u, step s = .next u ∧ core.run n u = .next t := by
  cases hs : step s with
  | next u => exact ⟨u, rfl, by rwa [run_succ n hs] at h⟩
  | fault f =>
    have h' : core.step s = .fault f := hs
    simp only [Host.Core.run] at h
    rw [h'] at h
    cases h
  | refused r =>
    have h' : core.step s = .refused r := hs
    simp only [Host.Core.run] at h
    rw [h'] at h
    cases h

end Sys2Proof.Machine
end

