-- ==== Sys2Proof/Laws/Invariant.lean ====
section
/-! SUPPORT. What each shared operation does to the invariant of Safety.lean, and the bits of the entry mask. -/

namespace Sys2Proof.Machine

/-! ### The entry mask -/

theorem getElem_firstEntries_fin : ∀ (n : Fin 11) (q : Fin 10),
    (firstEntries n.val)[q.val] = decide (q.val < n.val) := by
  decide +kernel

/-- Bit q of `2^n - 1` is set exactly if q < n. -/
theorem getElem_firstEntries (n : Nat) (hn : n ≤ 10) (q : Fin 10) : (firstEntries n)[q.val] = decide (q.val < n) :=
  getElem_firstEntries_fin ⟨n, by omega⟩ q

/-- Two entry masks with the same bits are the same. -/
theorem entries_ext {a b : BitVec 10} (h : ∀ q : Fin 10, a[q.val] = b[q.val]) : a = b := by
  apply BitVec.eq_of_getElem_eq
  intro q hq
  exact h ⟨q, hq⟩

/-- Marking the entry after the valid ones, or one of them, leaves a first part of the schedule valid. -/
theorem markEntry_firstEntries (n : Nat) (hn : n ≤ 10) (r : Fin 10) (h : r.val ≤ n) :
    markEntry (firstEntries n) r = firstEntries (max n (r.val + 1)) := by
  apply entries_ext
  intro q
  rw [getElem_markEntry, getElem_firstEntries n hn, getElem_firstEntries _ (by omega)]
  simp only [Fin.ext_iff, ← Bool.decide_or]
  congr 1
  simp only [eq_iff_iff]
  omega

theorem entries_all : (0x3FF : BitVec 10) = firstEntries 10 := by decide
theorem entries_none : (0 : BitVec 10) = firstEntries 0 := by decide

/-! ### The invariant, operation by operation -/

namespace State.Inv

variable {s : State}

/-- The invariant is about the hardware part of the state only. -/
theorem congr {t : State} (h : s.Inv) (hc : SameCore s t) : t.Inv where
  busy_iff_pending := by rw [hc.busy, hc.pend]; exact h.busy_iff_pending
  err_iff_code := by rw [hc.err, hc.errcode]; exact h.err_iff_code
  code_produced := by rw [hc.errcode]; exact h.code_produced
  entries_first := by rw [hc.rkv]; exact h.entries_first
  entries_key := by rw [hc.rkv, hc.keyv]; exact h.entries_key
  entries_derived := by simp only [hc.rkv, hc.rk, hc.key]; exact h.entries_derived
  pending_ready := by
    intro p hp
    obtain ⟨i, hi, hck⟩ := h.pending_ready p (hc.pend ▸ hp)
    exact ⟨i, hi, (checkState_congr i hc.keyv hc.datav hc.rkv).trans hck⟩

theorem withTurns (h : s.Inv) (ts : List Turn) : (withTurns ts s).Inv :=
  h.congr ⟨rfl, rfl, rfl, rfl, rfl, rfl, rfl, rfl, rfl, rfl, rfl⟩

theorem hostRead (h : s.Inv) (w : Widx) : (hostRead w s).Inv :=
  h.congr ⟨rfl, rfl, rfl, rfl, rfl, rfl, rfl, rfl, rfl, rfl, rfl⟩

/-- A rejection keeps it: it raises ERR with one of the codes 1..6 (60_exceptions.md R171, R172). -/
theorem reject (h : s.Inv) (e : ErrCode) : (reject e s).Inv where
  busy_iff_pending := h.busy_iff_pending
  err_iff_code := by cases e <;> simp [ErrCode.code]
  code_produced := by cases e <;> simp [ErrCode.code]
  entries_first := h.entries_first
  entries_key := h.entries_key
  entries_derived := h.entries_derived
  pending_ready := h.pending_ready

/-- A write to STATUS keeps it: it clears ERR and ERRCODE together (20_memory.md R57). -/
theorem writeStatus (h : s.Inv) (v : Word) : (writeStatus v s).Inv where
  busy_iff_pending := h.busy_iff_pending
  err_iff_code := by
    rw [writeStatus_err, writeStatus_errcode]
    split
    · simp
    · exact h.err_iff_code
  code_produced := by
    rw [writeStatus_errcode]
    split
    · decide
    · exact h.code_produced
  entries_first := h.entries_first
  entries_key := h.entries_key
  entries_derived := h.entries_derived
  pending_ready := h.pending_ready

/-- A write to a KEY word, with no command pending, keeps it: no entry is valid afterwards (20_memory.md R58). -/
theorem storeKey (h : s.Inv) (hb : s.busy = false) (c : Fin 4) (v : Word) : (storeKey c v s).Inv where
  busy_iff_pending := by rw [storeKey_busy, storeKey_pend]; exact h.busy_iff_pending
  err_iff_code := by rw [storeKey_err, storeKey_errcode]; exact h.err_iff_code
  code_produced := by rw [storeKey_errcode]; exact h.code_produced
  entries_first := ⟨0, by omega, by rw [storeKey_rkv]; exact entries_none⟩
  entries_key := by simp
  entries_derived := by
    intro r hr
    simp at hr
  pending_ready := by
    intro p hp
    rw [h.busy_iff_pending] at hb
    rw [storeKey_pend] at hp
    simp [hp] at hb

/-- A write to a DATA word, with no command pending, keeps it (20_memory.md R59). -/
theorem storeData (h : s.Inv) (hb : s.busy = false) (c : Fin 4) (v : Word) : (storeData c v s).Inv where
  busy_iff_pending := by rw [storeData_busy, storeData_pend]; exact h.busy_iff_pending
  err_iff_code := by rw [storeData_err, storeData_errcode]; exact h.err_iff_code
  code_produced := by rw [storeData_errcode]; exact h.code_produced
  entries_first := by rw [storeData_rkv]; exact h.entries_first
  entries_key := by rw [storeData_rkv, storeData_keyv]; exact h.entries_key
  entries_derived := by simp only [storeData_rkv, storeData_rk, storeData_key]; exact h.entries_derived
  pending_ready := by
    intro p hp
    rw [h.busy_iff_pending] at hb
    rw [storeData_pend] at hp
    simp [hp] at hb

/-- The acceptance of a word that passes its check keeps it (30_encoding.md R86). -/
theorem accept (h : s.Inv) {v : Word} (hc : check v s = none) : (accept ⟨opOf v, argOf v⟩ s).Inv where
  busy_iff_pending := rfl
  err_iff_code := h.err_iff_code
  code_produced := h.code_produced
  entries_first := h.entries_first
  entries_key := h.entries_key
  entries_derived := h.entries_derived
  pending_ready := by
    intro p hp
    obtain rfl : ⟨opOf v, argOf v⟩ = p := by simpa using hp
    obtain ⟨i, hd, hck⟩ := check_none hc
    exact ⟨i, (decode_ok hd).2, (checkState_congr i rfl rfl rfl).trans hck⟩

/-- The end of an Engine step keeps it (30_encoding.md R87). -/
theorem finish (h : s.Inv) : (finish s).Inv where
  busy_iff_pending := rfl
  err_iff_code := h.err_iff_code
  code_produced := h.code_produced
  entries_first := h.entries_first
  entries_key := h.entries_key
  entries_derived := h.entries_derived
  pending_ready := by simp

end State.Inv

/-- Reset meets it, whatever the model's own fields hold (70_reset_and_hazards.md R200). -/
theorem resetCore_inv (s : State) : (resetCore s).Inv where
  busy_iff_pending := rfl
  err_iff_code := by simp [State.reset]
  code_produced := by simp [State.reset]
  entries_first := ⟨0, by omega, entries_none⟩
  entries_key := fun hne => absurd rfl hne
  entries_derived := by
    intro r hr
    simp [State.reset] at hr
  pending_ready := by simp [State.reset]

/-! ### What a passed check says -/

/-- The command needs the key and the check passed: the key is whole (30_encoding.md R84). -/
theorem checkState_key {i : Instr} {s : State} (h : checkState i s = none) (hi : needsKey i = true) :
    s.keyv = 0b1111 := by
  unfold checkState at h
  split_ifs at h with h1
  simpa [hi, allWritten] using h1

/-- The command needs an entry and the check passed: the entry is valid (30_encoding.md R84). -/
theorem checkState_entry {i : Instr} {s : State} (h : checkState i s = none) {q : Nat} (hq : q ∈ needsEntries i) :
    s.rkv.getLsbD q = true := by
  unfold checkState at h
  split_ifs at h with h1 h2 h3
  simp only [List.any_eq_true, Bool.not_eq_true', not_exists, not_and] at h3
  simpa using h3 q hq

/-- A valid entry and a first part of the schedule: the entry is in it. -/
theorem entry_lt {n q : Nat} (hn : n ≤ 10) (h : (firstEntries n).getLsbD q = true) : q < n := by
  have hq : q < 10 := by
    by_contra hq
    rw [BitVec.getLsbD_of_ge _ _ (by omega)] at h
    cases h
  have := getElem_firstEntries n hn ⟨q, hq⟩
  rw [BitVec.getLsbD_eq_getElem hq] at h
  rw [h] at this
  simpa using this.symm

end Sys2Proof.Machine
end

