-- ==== Sys2Proof/Laws/PerInstr.lean ====
section
/-! SUPPORT. The statements made for each command: its word has the fixed bits of its own row of
spec/opcode_table.json (30_encoding.md R80, R81). -/

namespace Sys2Proof.Laws.EncodesTableRow

/-- The word of a well-formed command has the fixed bits of its row of the opcode table. -/
def Statement (i : Instr) : Prop := i.wf = true → encode i &&& i.row.mask = i.row.pattern

theorem expandKey : Statement .expandKey := by
  intro _
  decide

theorem encrypt : Statement .encrypt := by
  intro _
  decide

theorem keyRound (r : Arg) : Statement (.keyRound r) := by
  intro _
  revert r
  decide

theorem addRoundKey (k : Arg) : Statement (.addRoundKey k) := by
  intro _
  revert k
  decide

theorem subBytes : Statement .subBytes := by
  intro _
  decide

theorem shiftRows : Statement .shiftRows := by
  intro _
  decide

theorem mixColumns : Statement .mixColumns := by
  intro _
  decide

theorem round (j : Arg) : Statement (.round j) := by
  intro _
  revert j
  decide

end Sys2Proof.Laws.EncodesTableRow
end

