-- ==== Sys2Proof/Laws/Platform.lean ====
section
/-! SUPPORT. What the operations do to the number of a core, and where the windows of a platform's cores stand. -/

namespace Sys2Proof.Machine

/-- No step changes which core this is. -/
theorem step_number {s t : State} (h : step s = .next t) : t.number = s.number := by
  rcases step_cases h with ⟨w, rest, -, rfl⟩ | ⟨w, v, rest, -, rfl⟩ | ⟨rest, -, rfl⟩ | ⟨-, -, rfl⟩ |
    ⟨p, i, -, -, -, h⟩
  · simp
  · rcases busWrite_outcomes w v (withTurns rest s) with ⟨e, h⟩ | ⟨-, h⟩ | ⟨-, -, -, h⟩ | ⟨c, -, -, h⟩ |
      ⟨c, -, -, h⟩ <;> simp [h]
  · simp
  · simp
  · rcases exec_next_cases h with ⟨-, rfl⟩ | ⟨r, hr, -, rfl⟩ | ⟨b, -, -, rfl⟩ <;> simp

/-- A reset of all the instances keeps their numbers. -/
theorem platformResetAll_numbered {p : Platform} (h : p.numbered) : (platformResetAll p).numbered := by
  intro n s hs
  obtain ⟨u, hu, rfl⟩ : ∃ u, p[n]? = some u ∧ resetCore u = s := by simpa [platformResetAll] using hs
  exact h n u hu

/-- A number that is written as the byte offset of a word is read as that word (20_memory.md R51). -/
theorem offsetWidx_offsetOf (w : Widx) : offsetWidx (offsetOf w) = some w := by
  have := w.isLt
  rw [offsetWidx, if_pos (by simp only [offsetOf]; omega), widxOf_offsetOf]

/-- Only a multiple of 4 below 4096 is read as a byte offset (20_memory.md R51). -/
theorem offsetWidx_eq_some {off : Nat} {w : Widx} (h : offsetWidx off = some w) : off = offsetOf w := by
  unfold offsetWidx at h
  split_ifs at h with hoff
  obtain rfl : widxOf off = w := by simpa using h
  exact (offsetOf_widxOf off hoff.1 hoff.2).symm

/-- A word of an instance's window is found at its platform address. -/
theorem widxAt_platformAddress (i : Nat) (w : Widx) : widxAt i (platformAddress i w) = some w := by
  rw [widxAt, platformAddress, if_pos (by omega), Nat.add_sub_cancel_left, offsetWidx_offsetOf]

/-- Only the addresses of an instance's window give a word of it. -/
theorem widxAt_eq_some {i address : Nat} {w : Widx} (h : widxAt i address = some w) : address = platformAddress i w := by
  unfold widxAt at h
  split_ifs at h with hb
  have := offsetWidx_eq_some h
  simp only [platformAddress]
  omega

/-- Where the windows are apart, no address stands in two of them. -/
theorem widxAt_other {n i j : Nat} (hn : WindowsApart n) (hi : i < n) (hj : j < n) (hij : i ≠ j) (w : Widx) :
    widxAt j (platformAddress i w) = none := by
  cases h : widxAt j (platformAddress i w) with
  | none => rfl
  | some v =>
    have ha := widxAt_eq_some h
    have := w.isLt
    have := v.isLt
    have := hn i j hi hj hij
    simp only [platformAddress, offsetOf] at ha
    omega

end Sys2Proof.Machine
end

