-- ==== Sys2Proof/Tests/Slice0.lean ====
section
/-! SUPPORT. Tests of the model. Expected values are the vectors of spec/95_test_vectors.md, named in each docstring;
the last part shows, for each obligation with hypotheses, concrete states and operands that meet them. -/

namespace Sys2Proof.Tests

-- One theorem at a time: the kernel evaluations below would otherwise all hold a thread.
set_option Elab.async false

open Sys2Proof Sys2Proof.Machine

/-! ### Helpers -/

/-- A Block from its four register words. -/
def blockOf (w0 w1 w2 w3 : Word) : Block :=
  setBlockWord (setBlockWord (setBlockWord (setBlockWord zeroBlock 0 w0) 1 w1) 2 w2) 3 w3

/-- The state of an outcome, if it is one. -/
def outOf (r : Result) : Option State :=
  match r with
  | .next t => some t
  | .fault _ => none
  | .refused _ => none

/-- An idle core with a whole key, a whole block, the given schedule and every entry valid. -/
def ready (key data : Block) (rk : Schedule) : State :=
  { State.reset with key := key, keyv := 0b1111, data := data, datav := 0b1111, rk := rk, rkv := 0x3FF }

/-- The four words of DATA after the Engine performs `i`. -/
def dataAfter (i : Instr) (s : State) : Option (List Word) :=
  (outOf (exec i s)).map fun t => (List.finRange 4).map (blockWord t.data)

/-- The four words of RK[r] after the Engine performs `i`. -/
def entryAfter (i : Instr) (r : Fin 10) (s : State) : Option (List Word) :=
  (outOf (exec i s)).map fun t => (List.finRange 4).map (blockWord t.rk[r])

/-- STATUS after one host write. -/
def statusAfter (off : Nat) (v : Word) (s : State) : Word := statusWord (busWrite (widxOf off) v s)

/-- A schedule of ten equal entries. -/
def allEntries (b : Block) : Schedule := Vector.replicate 10 b

/-- The Block 00 01 .. 0f of V-SB1, V-SR1, V-MC2. -/
def counting : Block := blockOf 0x00010203 0x04050607 0x08090A0B 0x0C0D0E0F

/-- The key of V-KAT2. -/
def kungFuKey : Block := blockOf 0x54686174 0x73206D79 0x204B756E 0x67204675

/-! ### Decoding (V-DEC1), the words written out from 30_encoding.md R80, R81 -/

theorem test_decode_expandKey : decode 0x00000001 = .ok .expandKey := by decide
theorem test_decode_encrypt : decode 0x00000002 = .ok .encrypt := by decide
theorem test_decode_keyRound : decode 0x00000903 = .ok (.keyRound 9) := by decide
theorem test_decode_addRoundKey : decode 0x00000A04 = .ok (.addRoundKey 10) := by decide
theorem test_decode_subBytes : decode 0x00000005 = .ok .subBytes := by decide
theorem test_decode_shiftRows : decode 0x00000006 = .ok .shiftRows := by decide
theorem test_decode_mixColumns : decode 0x00000007 = .ok .mixColumns := by decide
theorem test_decode_round : decode 0x00000108 = .ok (.round 1) ∧ decode 0x00000A08 = .ok (.round 10) := by decide

/-- V-DEC1: the illegal words of the table. -/
theorem test_decode_illegal :
    [0x00000000, 0x00000009, 0x000000FF].all (fun v => decide (decode v = .error .noSuchOpcode)) ∧
    [0x00000101, 0x00000F07].all (fun v => decide (decode v = .error .operandNotZero)) ∧
    [0x00000A03, 0x00000B04, 0x00000008, 0x00000B08].all (fun v => decide (decode v = .error .operandRange)) ∧
    [0x00001001, 0x80000002, 0xFFFFFFFF].all (fun v => decide (decode v = .error .reservedBits)) := by
  decide

/-- The host's view: the row's own word, and a row word that is illegal because ARG = 0 (30_encoding.md R83). -/
theorem test_decodeTableWord : decodeTableWord 32 0x00000003 = some (.keyRound 0) ∧
    decodeTableWord 32 0x00000008 = none ∧ decodeTableWord 40 0x100000001 = none := by
  decide

/-! ### Well-formedness: an ill-formed command for each check (30_encoding.md R83) -/

theorem test_wf_refuses : (Instr.keyRound 10).wf = false ∧ (Instr.addRoundKey 11).wf = false ∧
    (Instr.round 0).wf = false ∧ (Instr.round 11).wf = false := by
  decide

theorem test_wf_accepts : (Instr.keyRound 9).wf = true ∧ (Instr.addRoundKey 10).wf = true ∧
    (Instr.round 1).wf = true ∧ (Instr.round 10).wf = true := by
  decide

/-! ### Field arithmetic and the ROMs -/

/-- V-GF1. -/
theorem test_gf : [0x00, 0x01, 0x02, 0x57, 0x7f, 0x80, 0x81, 0x8d, 0xae, 0xc6, 0xfe, 0xff].map xtime =
      [0x00, 0x02, 0x04, 0xae, 0xfe, 0x1b, 0x19, 0x01, 0x47, 0x97, 0xe7, 0xe5] ∧
    [0x00, 0x01, 0x02, 0x57, 0x7f, 0x80, 0x81, 0x8d, 0xae, 0xc6, 0xfe, 0xff].map (mul .three) =
      [0x00, 0x03, 0x06, 0xf9, 0x81, 0x9b, 0x98, 0x8c, 0xe9, 0x51, 0x19, 0x1a] := by
  decide

/-- A general product in the field of 40_tables.md R100, for the check below only. -/
def gfMul (a b : Byte) : Byte :=
  (List.range 8).foldl
    (fun acc n => if b.getLsbD n then acc ^^^ (List.range n).foldl (fun x _ => xtime x) a else acc) 0

/-- V-GF2. -/
theorem test_gf_products : gfMul 0x57 0x13 = 0xfe ∧ gfMul 0x57 0x83 = 0xc1 ∧ gfMul 0x02 0x87 = 0x15 := by decide

/-- The affine map of 40_tables.md R105. -/
def affine (b : Byte) : Byte :=
  b ^^^ b.rotateLeft 1 ^^^ b.rotateLeft 2 ^^^ b.rotateLeft 3 ^^^ b.rotateLeft 4 ^^^ 0x63

/-- The affine map undone. -/
def unaffine (x : Byte) : Byte := x.rotateLeft 1 ^^^ x.rotateLeft 3 ^^^ x.rotateLeft 6 ^^^ 0x05

/-- 40_tables.md R105: each entry is the affine map of the inverse of its index, and entry 0 that of 0. -/
theorem test_sbox_construction : (∀ x : Byte, affine (unaffine x) = x) ∧ unaffine (sbox 0) = 0 ∧
    (∀ v : Byte, v ≠ 0 → gfMul v (unaffine (sbox v)) = 1) := by
  decide +kernel

/-- V-ROM3: the XOR and the integer sum of all entries. -/
theorem test_sbox_sums : ((List.range 256).map fun v => sbox (BitVec.ofNat 8 v)).foldl (· ^^^ ·) 0 = 0 ∧
    ((List.range 256).map fun v => (sbox (BitVec.ofNat 8 v)).toNat).sum = 32640 := by
  decide +kernel

/-- V-G1, rows 6 and 4. -/
theorem test_gWord : gWord #v[0x12, 0x34, 0x56, 0x78] 5 = #v[0x38, 0xb1, 0xbc, 0xc9] ∧
    gWord #v[0xff, 0xff, 0xff, 0xff] 9 = #v[0x20, 0x16, 0x16, 0x16] := by
  decide +kernel

/-! ### The commands, performed by the Engine -/

/-- V-KS1, row 9. -/
theorem test_expandKey_kat1 : entryAfter .expandKey 9 (ready (blockOf 0x80000000 0 0 0) zeroBlock (allEntries zeroBlock))
    = some [0xB5B12517, 0x3ECCE2CD, 0x22E95113, 0x6F8F1852] := by
  decide +kernel

/-- V-KS5, row 9. -/
theorem test_expandKey_fips : entryAfter .expandKey 9
      (ready (blockOf 0x2B7E1516 0x28AED2A6 0xABF71588 0x09CF4F3C) zeroBlock (allEntries zeroBlock))
    = some [0xD014F9A8, 0xC9EE2589, 0xE13F0CC8, 0xB6630CA6] := by
  decide +kernel

/-- V-KAT1, the first source vector. -/
theorem test_encrypt_kat1 : dataAfter .encrypt
      (ready (blockOf 0x80000000 0 0 0) zeroBlock (expandKey (blockOf 0x80000000 0 0 0)))
    = some [0x0EDD33D3, 0xC621E546, 0x455BD8BA, 0x1418BEC8] := by
  decide +kernel

/-- V-KAT2, the second source vector. -/
theorem test_encrypt_kat2 : dataAfter .encrypt
      (ready kungFuKey (blockOf 0x54776F20 0x4F6E6520 0x4E696E65 0x2054776F) (expandKey kungFuKey))
    = some [0x29C3505F, 0x571420F6, 0x402299B3, 0x1A02D73A] := by
  decide +kernel

/-- V-KR1: KEY_ROUND 0 reads KEY. -/
theorem test_keyRound_zero : entryAfter (.keyRound 0) 0 (ready kungFuKey zeroBlock (allEntries zeroBlock))
    = some [0xE232FCF1, 0x91129188, 0xB159E4E6, 0xD679A293] := by
  decide +kernel

/-- V-KS2, row 9 from row 8: KEY_ROUND 9 reads RK[8], with the constant 0x36. -/
theorem test_keyRound_nine : entryAfter (.keyRound 9) 9
      (ready kungFuKey zeroBlock (allEntries (blockOf 0xBFE2BF90 0x4559FAB2 0xA16480B4 0xF7F1CBD8)))
    = some [0x28FDDEF8, 0x6DA4244A, 0xCCC0A4FE, 0x3B316F26] := by
  decide +kernel

/-- V-ARK1: ADD_ROUND_KEY 0 uses KEY. -/
theorem test_addRoundKey_zero : dataAfter (.addRoundKey 0)
      (ready (blockOf 0xFFFFFFFF 0xFFFFFFFF 0xFFFFFFFF 0xFFFFFFFF) counting (allEntries zeroBlock))
    = some [0xFFFEFDFC, 0xFBFAF9F8, 0xF7F6F5F4, 0xF3F2F1F0] := by
  decide +kernel

/-- V-ARK2: ADD_ROUND_KEY 10 uses RK[9] of V-KS3. -/
theorem test_addRoundKey_ten : dataAfter (.addRoundKey 10) (ready zeroBlock zeroBlock (expandKey zeroBlock))
    = some [0xB4EF5BCB, 0x3E92E211, 0x23E951CF, 0x6F8F188E] := by
  decide +kernel

/-- V-SB1. -/
theorem test_subBytes : dataAfter .subBytes (ready zeroBlock counting (allEntries zeroBlock))
    = some [0x637C777B, 0xF26B6FC5, 0x3001672B, 0xFED7AB76] := by
  decide +kernel

/-- V-SR1. -/
theorem test_shiftRows : dataAfter .shiftRows (ready zeroBlock counting (allEntries zeroBlock))
    = some [0x00050A0F, 0x04090E03, 0x080D0207, 0x0C01060B] := by
  decide +kernel

/-- V-MC2. -/
theorem test_mixColumns : dataAfter .mixColumns (ready zeroBlock counting (allEntries zeroBlock))
    = some [0x02070005, 0x06030401, 0x0A0F080D, 0x0E0B0C09] := by
  decide +kernel

/-- V-MC1: columns 1, 5, 6 and 8 of the table. -/
theorem test_mixColumns_columns : dataAfter .mixColumns
      (ready zeroBlock (blockOf 0xDB135345 0xD4D4D4D5 0x2D26314C 0x80000000) (allEntries zeroBlock))
    = some [0x8E4DA1BC, 0xD5D5D7D6, 0x4D7EBDF8, 0x1B80809B] := by
  decide +kernel

/-- V-RD1: ROUND 1 of V-KAT2, with RK[0] of V-KS2. -/
theorem test_round_one : dataAfter (.round 1) (ready kungFuKey
      (blockOf 0x001F0E54 0x3C4E0859 0x6E221B0B 0x4774311A)
      (allEntries (blockOf 0xE232FCF1 0x91129188 0xB159E4E6 0xD679A293)))
    = some [0x5847088B, 0x15B61CBA, 0x59D4E2E8, 0xCD39DFCE] := by
  decide +kernel

/-- V-LAW3: ROUND 10 does not mix columns; RK[9] is row 9 of V-KS2. -/
theorem test_round_ten : dataAfter (.round 10) (ready kungFuKey
      (blockOf 0x09668B78 0xA2D19A65 0xF0FCE6C4 0x7B3B3089)
      (allEntries (blockOf 0x28FDDEF8 0x6DA4244A 0xCCC0A4FE 0x3B316F26)))
    = some [0x29C3505F, 0x571420F6, 0x402299B3, 0x1A02D73A] := by
  decide +kernel

/-! ### Bus accesses, checks and reset -/

/-- A core right after reset but for the masks and BUSY. -/
def masks (keyv datav : BitVec 4) (rkv : BitVec 10) (busy : Bool) : State :=
  { State.reset with keyv := keyv, datav := datav, rkv := rkv, busy := busy }

/-- V-CHK1 to V-CHK8. -/
theorem test_checks_first : statusAfter 0x00C 0x002 (masks 0b0000 0b0000 0x000 false) = 0x34 ∧
    statusAfter 0x00C 0x102 (masks 0b0000 0b0000 0x000 false) = 0x24 ∧
    statusAfter 0x00C 0x002 (masks 0b1111 0b0000 0x000 false) = 0x44 ∧
    statusAfter 0x00C 0x002 (masks 0b1111 0b1111 0x000 false) = 0x54 ∧
    statusAfter 0x00C 0x002 (masks 0b0111 0b1111 0x000 false) = 0x34 ∧
    statusAfter 0x00C 0x002 (masks 0b1111 0b1111 0x1FF false) = 0x54 ∧
    statusAfter 0x00C 0x005 (masks 0b0000 0b1111 0x000 false) = 0x01 ∧
    statusAfter 0x00C 0x004 (masks 0b0000 0b1111 0x000 false) = 0x34 := by
  decide +kernel

/-- V-CHK9 to V-CHK16. -/
theorem test_checks_second : statusAfter 0x00C 0x104 (masks 0b0000 0b1111 0x000 false) = 0x54 ∧
    statusAfter 0x00C 0x108 (masks 0b1111 0b0111 0x000 false) = 0x44 ∧
    statusAfter 0x00C 0x0FF (masks 0b1111 0b1111 0x3FF true) = 0x15 ∧
    statusAfter 0x00C 0x002 (masks 0b1111 0b1111 0x3FF false) = 0x01 ∧
    statusAfter 0x00C 0x001 (masks 0b0000 0b0000 0x000 false) = 0x34 ∧
    statusAfter 0x00C 0x303 (masks 0b1111 0b0000 0x003 false) = 0x54 ∧
    statusAfter 0x00C 0x203 (masks 0b1111 0b0000 0x003 false) = 0x01 ∧
    statusAfter 0x00C 0x208 (masks 0b1111 0b1111 0x001 false) = 0x54 := by
  decide +kernel

/-- V-BUS1: reads after reset, at the edges of every range of the map. -/
theorem test_reads_after_reset : busRead (widxOf 0x000) State.reset = 0x41455331 ∧
    [0x004, 0x008, 0x00C, 0x010, 0x01C, 0x020, 0x02C, 0x030, 0x0FC, 0x100, 0x19C, 0x1A0, 0x3FC, 0x828, 0xFFC].all
      (fun off => busRead (widxOf off) State.reset == 0) ∧
    busRead (widxOf 0x400) State.reset = 0x63 ∧ busRead (widxOf 0x7FC) State.reset = 0x16 ∧
    busRead (widxOf 0x800) State.reset = 0x01 ∧ busRead (widxOf 0x824) State.reset = 0x36 := by
  decide +kernel

/-- V-BUS2: STATUS writes, from 0x56 while idle and from 0x15 while BUSY = 1. -/
theorem test_status_writes : [0x2, 0x4, 0x6, 0x1, 0x50, 0x8, 0xFFFFFFFF, 0x0].map (fun v => statusAfter 0x004 v
      { State.reset with done := true, err := true, errcode := 5 })
      = [0x54, 0x2, 0x0, 0x56, 0x56, 0x56, 0x0, 0x56] ∧
    statusAfter 0x004 0xFFFFFFFF { masks 0 0 0 true with err := true, errcode := 1 } = 0x1 := by
  decide +kernel

/-- I6, I8: a STATUS word with a code 7..15 or a reserved bit, and a VALID word with a reserved bit, are refused; V-KR4
gives the VALID word that is read. -/
theorem test_views : [0x74, 0xF4, 0x08, 0x100].all (fun v => (statusView v).isNone) ∧
    statusView 0x64 = some ⟨false, false, true, some .addr⟩ ∧ validView 0x40000 = none ∧
    validView 0x3FF0F = some ⟨0b1111, 0b0000, 0x3FF⟩ := by
  decide

/-- V-BUS3: writes that are rejected with ADDR. -/
theorem test_rejected_offsets : [0x000, 0x008, 0x030, 0x0FC, 0x100, 0x19C, 0x1A0, 0x400, 0x7FC, 0x800, 0x824, 0x828,
    0xFFC].all (fun off => statusAfter off 0xFFFFFFFF State.reset == 0x64) := by
  decide +kernel

/-- V-BUS4: a KEY write from reset. -/
theorem test_key_write : (busWrite (widxOf 0x010) 0x80000000 State.reset).key = blockOf 0x80000000 0 0 0 ∧
    busRead (widxOf 0x008) (busWrite (widxOf 0x010) 0x80000000 State.reset) = 0x1 ∧
    busRead (widxOf 0x010) (busWrite (widxOf 0x010) 0x80000000 State.reset) = 0x80000000 := by
  decide +kernel

/-- V-BUS4: with the schedule valid, a DATA write leaves RKV and a KEY write clears it. -/
theorem test_data_write : busRead (widxOf 0x008) (busWrite (widxOf 0x024) 0xDEADBEEF (masks 0b1111 0b1111 0x3FF false))
      = 0x3FFFF ∧
    (busWrite (widxOf 0x024) 0xDEADBEEF State.reset).data = blockOf 0 0xDEADBEEF 0 0 ∧
    busRead (widxOf 0x008) (busWrite (widxOf 0x014) 0 (masks 0b1111 0b1111 0x3FF false)) = 0xFF := by
  decide +kernel

/-- V-RST2: a reset while a command is pending. -/
theorem test_reset_while_busy : (outOf (step
      { accept ⟨0x02, 0⟩ (ready (blockOf 0x80000000 0 0 0) counting (allEntries counting)) with turns := [.reset] }))
    = some State.reset := by
  decide +kernel

/-- The part of program P4 after its CLRSTAT: a DATA write right after ENCRYPT is issued. -/
def busyProgram : List Line :=
  [.cmd 0x02 0, .wr (widxOf 0x020) 0xFFFFFFFF, .wait, .readData "d0" "d1" "d2" "d3", .rd statusWidx (some "s")]

/-- The core at that point: V-KAT1 with its schedule, and STATUS cleared. -/
def busyCore : State := ready (blockOf 0x80000000 0 0 0) zeroBlock (expandKey (blockOf 0x80000000 0 0 0))

/-- What the host has kept and still has to do after a run of agents. -/
def hostAfter (as : List Agent) (r : HostRun) : Option (List (String × Word) × List HostAct) :=
  match agentSteps as r with
  | .next t => some (t.kept, t.todo)
  | .fault _ => none
  | .refused _ => none

/-- Program P4, order A: the write comes before the Engine step, two polls find BUSY = 1, and the write is rejected. -/
theorem test_busy_hazard_a : hostAfter (List.replicate 4 .host ++ .engine :: List.replicate 6 .host)
      (startHost busyProgram busyCore)
    = some ([("d0", 0x0EDD33D3), ("d1", 0xC621E546), ("d2", 0x455BD8BA), ("d3", 0x1418BEC8), ("s", 0x16)], []) := by
  decide +kernel

/-- Program P4, order B: the Engine step comes before the write, which replaces the first word. -/
theorem test_busy_hazard_b : hostAfter (.host :: .engine :: List.replicate 7 .host) (startHost busyProgram busyCore)
    = some ([("d0", 0xFFFFFFFF), ("d1", 0xC621E546), ("d2", 0x455BD8BA), ("d3", 0x1418BEC8), ("s", 0x2)], []) := by
  decide +kernel

/-- A RUN whose command is rejected (V-CHK1): its WAIT is over after the one read that finds BUSY = 0 (30_encoding.md
R91). -/
theorem test_wait_after_rejection : hostAfter [.host, .host, .host] (startHost [.run 0x02 0, .rd statusWidx (some "s")]
    State.reset) = some ([("s", 0x34)], []) := by
  decide +kernel

/-- 20_memory.md R51: the last word of each core's window is a platform address, the byte after the window is not, and
neither is a byte inside a word. -/
theorem test_addresses (n : Nat) : widxAt n (platformAddress n 0x3FF) = some 0x3FF ∧
    widxAt n (Config.coreBase n + 4096) = none ∧ widxAt n (Config.coreBase n + 2) = none := by
  refine ⟨widxAt_platformAddress n 0x3FF, ?_, ?_⟩ <;>
  · rw [widxAt, if_pos (by omega), Nat.add_sub_cancel_left]
    decide

/-- 20_memory.md R51: an offset off a word boundary or past the window names no access. -/
theorem test_offsets : offsetWidx 0xFFC = some 0x3FF ∧ offsetWidx 0x006 = none ∧ offsetWidx 0x1000 = none := by decide

/-- 30_encoding.md R90: the offsets behind the names DATA3 and RK9.3. -/
theorem test_names : (Region.data 3).offset = some 0x02C ∧ (Region.rk 9 3).offset = some 0x19C := by decide

/-- A busy core of a platform. -/
def waitingCore (n : Nat) : State := { accept ⟨0x05, 0⟩ (ready counting counting (allEntries counting)) with number := n }

/-- 60_exceptions.md R185: two cores start at reset under their own numbers, and a reset of both leaves them so. -/
theorem test_platform_reset : platformResetAll [waitingCore 0, waitingCore 1] = platformReset 2 := by decide +kernel

/-- A word placed for the next step is performed by it, and an illegal one is rejected (log 7). -/
theorem test_placed_word : ((outOf (step (State.reset.withFetchWord 32 0x00000005))).map fun t => blockWord t.data 0)
      = some 0x63636363 ∧
    (outOf (step (State.reset.withFetchWord 32 0x00000008))).map statusWord = some 0x24 := by
  decide +kernel
/-! ### Witnesses: concrete states and operands that meet the hypotheses of each obligation

The witness of an obligation bears its name. An obligation that is not named here has no hypotheses. -/

/-- An idle core whose schedule is its key's. -/
def loaded : State := ready zeroBlock counting (expandKey zeroBlock)

/-- The same core with an accepted ENCRYPT. -/
def waiting : State := accept ⟨0x02, 0⟩ loaded

/-- `s` with the given turns to come. -/
def given (ts : List Turn) (s : State) : State := withTurns ts s

/-- A host write and a host read as a turn. -/
def wr (off : Nat) (v : Word) : Turn := .host (.write (widxOf off) v)
def rd (off : Nat) : Turn := .host (.read (widxOf off))

theorem loaded_inv : loaded.Inv where
  busy_iff_pending := rfl
  err_iff_code := by simp [loaded, ready, State.reset]
  code_produced := by simp [loaded, ready, State.reset]
  entries_first := ⟨10, by omega, entries_all⟩
  entries_key := fun _ => rfl
  entries_derived := fun _ _ => rfl
  pending_ready := by simp [loaded, ready, State.reset]

theorem waiting_inv : waiting.Inv := loaded_inv.accept (v := 0x00000002) (by decide +kernel)

theorem witness_DecodeOfEncodedCommandIsTheCommand : (Instr.keyRound 0).wf = true ∧ (Instr.keyRound 9).wf = true ∧
    (Instr.addRoundKey 10).wf = true ∧ (Instr.round 1).wf = true ∧ (Instr.round 10).wf = true := by
  decide

theorem witness_EveryWordIsOneCommandOrIllegal : IllegalWord 0x00000A03 ∧ ¬ IllegalWord 0x00000903 ∧
    NextWrites (given [wr 0x00C 0x00000A03] loaded) 0x00C 0x00000A03 [] ∧
    (given [wr 0x00C 0x00000A03] loaded).busy = false ∧ (Instr.keyRound 9).wf = true ∧
    encode (.keyRound 9) = 0x00000903 := by
  unfold IllegalWord NextWrites
  decide +kernel

theorem witness_TableRowsFitAndDoNotOverlap : decode 0x00000A04 = .ok (.addRoundKey 10) ∧
    (0x00000A04 : Word) &&& (Instr.addRoundKey 0).row.mask = (Instr.addRoundKey 0).row.pattern := by
  decide

/-- R85, the clauses of an illegal word: the words next to the legal ones. -/
theorem witness_CheckFollowsTheOrderOfTheRule_illegal : (0x00001001 : Word).toNat / 4096 ≠ 0 ∧
    (0x00000000 : Word).toNat / 4096 = 0 ∧ (0x00000000 : Word).toNat % 256 = 0 ∧ 9 ≤ (0x00000009 : Word).toNat % 256 ∧
    ((0x00000101 : Word).toNat % 256 = 1 ∧ (0x00000101 : Word).toNat / 256 % 16 ≠ 0) ∧
    ((0x00000A03 : Word).toNat % 256 = 3 ∧ 9 < (0x00000A03 : Word).toNat / 256 % 16) ∧
    ((0x00000B04 : Word).toNat % 256 = 4 ∧ 10 < (0x00000B04 : Word).toNat / 256 % 16) ∧
    ((0x00000008 : Word).toNat % 256 = 8 ∧ (0x00000008 : Word).toNat / 256 % 16 = 0) ∧
    ((0x00000B08 : Word).toNat % 256 = 8 ∧ 10 < (0x00000B08 : Word).toNat / 256 % 16) := by
  decide

/-- R85, the clauses of a legal word: ENCRYPT with the key, then the block, then one entry missing, and with nothing
missing. -/
theorem witness_CheckFollowsTheOrderOfTheRule_legal : ¬ IllegalWord 0x00000002 ∧ (0x00000002 : Word).toNat % 256 = 2 ∧
    (masks 0b0111 0b0000 0x000 false).keyv ≠ 0b1111 ∧
    ((masks 0b1111 0b0111 0x000 false).keyv = 0b1111 ∧ (masks 0b1111 0b0111 0x000 false).datav ≠ 0b1111) ∧
    ((masks 0b1111 0b1111 0x1FF false).datav = 0b1111 ∧ (masks 0b1111 0b1111 0x1FF false).rkv[9] = false) ∧
    (∀ r : Fin 10, loaded.rkv[r.val] = true) := by
  unfold IllegalWord
  decide +kernel

theorem witness_CmdWriteIssuesOrRejects :
    (NextWrites (given [wr 0x00C 2] waiting) 0x00C 2 [] ∧ (given [wr 0x00C 2] waiting).busy = true) ∧
    (NextWrites (given [wr 0x00C 0] loaded) 0x00C 0 [] ∧ (given [wr 0x00C 0] loaded).busy = false ∧
      check 0 (given [wr 0x00C 0] loaded) = some .illegal) ∧
    (NextWrites (given [wr 0x00C 2] loaded) 0x00C 2 [] ∧ check 2 (given [wr 0x00C 2] loaded) = none) := by
  unfold NextWrites
  decide +kernel

theorem witness_DoublingShiftsAndReduces : (0x7F : Byte).toNat < 0x80 ∧ 0x80 ≤ (0x80 : Byte).toNat := by decide

theorem witness_KeyRoundDerivesOneEntry : (0 : Arg).toNat < 10 ∧ (9 : Arg).toNat < 10 ∧ 1 ≤ (9 : Arg).toNat ∧
    (8 : Fin 10).val ≠ (9 : Arg).toNat := by
  decide

theorem witness_AddRoundKeyXorsTheRoundKey : (0 : Arg).toNat < 11 ∧ (10 : Arg).toNat < 11 ∧ 1 ≤ (10 : Arg).toNat := by
  decide

theorem witness_RoundRunsItsStepsAndRoundTenSkipsMixing : (1 ≤ (9 : Arg).toNat ∧ (9 : Arg).toNat < 10) ∧
    (10 : Arg).toNat < 11 ∧ (10 : Arg).toNat = 10 := by
  decide

theorem witness_WellFormedCommandsAlwaysComplete : (Instr.keyRound 9).wf = true ∧ (Instr.keyRound 10).wf = false := by
  decide

theorem witness_TenKeyRoundsEqualOneExpandKey : loaded.keyv = 0b1111 ∧ loaded.busy = false := by decide

theorem witness_WhiteningAndTenRoundsEqualOneEncrypt : loaded.keyv = 0b1111 ∧ loaded.datav = 0b1111 ∧
    loaded.rkv = 0x3FF ∧ loaded.busy = false := by
  decide

theorem witness_RoundEqualsItsPrimitives : (1 ≤ (9 : Arg).toNat ∧ (9 : Arg).toNat ≤ 9) ∧ (10 : Arg).toNat = 10 := by
  decide

theorem witness_AcceptedEncryptUsesTheScheduleOfItsKey : loaded.Inv ∧ checkState .encrypt loaded = none :=
  ⟨loaded_inv, by decide +kernel⟩

theorem witness_StepPerformsThePendingCommand :
    (EngineNext (given [.engine] waiting) ∧ (given [.engine] waiting).pend = some ⟨0x02, 0⟩ ∧
      decodeFields 0x02 0 = .ok .encrypt) ∧
    (EngineNext waiting ∧ waiting.pend = some ⟨0x02, 0⟩) ∧ (EngineNext loaded ∧ loaded.pend = none) :=
  ⟨⟨.inr ⟨[], rfl⟩, by decide, by decide⟩, ⟨.inl rfl, by decide⟩, .inl rfl, by decide⟩

theorem witness_PlacedWordIsPerformedByTheNextStep : decodeTableWord 32 0x00000903 = some (.keyRound 9) := by decide

theorem witness_IssuedCommandIsPerformed : (Instr.round 10).wf = true ∧
    (given (commandTurns [.round 10]) loaded).busy = false ∧
    checkState (.round 10) (given (commandTurns [.round 10]) loaded) = none ∧
    (given (commandTurns [.round 10]) loaded).turns = commandTurns [.round 10] ++ [] := by
  decide +kernel

/-- The second clause is met by an order in which the Engine steps where nothing is pending as well. -/
theorem witness_ExpandKeyAndEncryptBlockReturnTheCiphertext : loaded.busy = false ∧ loaded.pend = none ∧
    (let as : List Agent := .engine :: (List.replicate 5 .host ++ .engine :: (List.replicate 6 .host ++
       .engine :: List.replicate 5 .host))
     Agent.reset ∉ as ∧ ∃ r, agentSteps as (startHost (expandKeyCall zeroBlock ++ encryptBlockCall zeroBlock) loaded)
       = .next r ∧ r.todo = []) :=
  ⟨rfl, rfl, by decide, _, rfl, by decide +kernel⟩

/-- Both ends of each reserved range of R52. -/
theorem witness_ReadsFollowTheAddressMap : loaded.busy = false ∧ waiting.busy = true ∧ 4 * (widxOf 0x030).toNat = 0x030 ∧
    4 * (widxOf 0x0FC).toNat = 0x0FC ∧ 4 * (widxOf 0x1A0).toNat = 0x1A0 ∧ 4 * (widxOf 0x3FC).toNat = 0x3FC ∧
    4 * (widxOf 0x828).toNat = 0x828 ∧ 4 * (widxOf 0xFFC).toNat = 0xFFC := by
  decide

theorem witness_WordsArePackedBigEndian : (3 : Fin 4) ≠ 0 := by decide

theorem witness_ReadsChangeNoState : (given [rd 0x020] loaded).turns = .host (.read (widxOf 0x020)) :: [] ∧
    readDraws (widxOf 0x020) (given [rd 0x020] loaded) = false ∧
    readDraws (widxOf 0x020) (given [rd 0x020] waiting) = true := by
  decide

/-- The second state differs in DATA and RKV, which no read without a draw shows. -/
theorem witness_BusyReadsAreFreeOnlyWhereTheRuleSays : waiting.busy = true ∧
    readDraws (widxOf 0x02C) waiting = true ∧ readDraws (widxOf 0x030) waiting = false ∧
    readDraws (widxOf 0x19C) waiting = true ∧ readDraws (widxOf 0x1A0) waiting = false ∧
    (let t := { waiting with data := zeroBlock, rkv := 0 }
     t.busy = waiting.busy ∧ t.key = waiting.key ∧ t.done = waiting.done ∧ t.err = waiting.err ∧
       t.errcode = waiting.errcode) := by
  decide

theorem witness_StatusWriteClearsWhatItNames : NextWrites (given [wr 0x004 6] waiting) 0x004 6 [] ∧
    (6 : Word).toNat / 2 % 2 = 1 ∧ (6 : Word).toNat / 4 % 2 = 1 := by
  unfold NextWrites
  decide

theorem witness_KeyWriteStoresAndInvalidatesTheSchedule :
    (NextWrites (given [wr 0x01C 5] waiting) (0x010 + 4 * (3 : Fin 4).val) 5 [] ∧
      (given [wr 0x01C 5] waiting).busy = true) ∧
    (NextWrites (given [wr 0x010 5] loaded) (0x010 + 4 * (0 : Fin 4).val) 5 [] ∧
      (given [wr 0x010 5] loaded).busy = false) := by
  unfold NextWrites
  decide

theorem witness_DataWriteStoresOneWord :
    (NextWrites (given [wr 0x02C 5] waiting) (0x020 + 4 * (3 : Fin 4).val) 5 [] ∧
      (given [wr 0x02C 5] waiting).busy = true) ∧
    (NextWrites (given [wr 0x020 5] loaded) (0x020 + 4 * (0 : Fin 4).val) 5 [] ∧
      (given [wr 0x020 5] loaded).busy = false) := by
  unfold NextWrites
  decide

/-- The offsets next to the writable ones. -/
theorem witness_WritesToReadOnlyOrReservedAreRejected :
    (given [wr 0x030 5] loaded).turns = .host (.write (widxOf 0x030) 5) :: [] ∧
    [0x000, 0x008, 0x030, 0xFFC].all (fun off => decide (4 * (widxOf off).toNat ≠ 0x004 ∧
      4 * (widxOf off).toNat ≠ 0x00C ∧ ¬ (0x010 ≤ 4 * (widxOf off).toNat ∧ 4 * (widxOf off).toNat ≤ 0x02C))) = true := by
  decide

theorem witness_NothingAPendingCommandReadsCanChange :
    (waiting.busy = true ∧ (given [wr 0x02C 5] waiting).turns = .host (.write (widxOf 0x02C) 5) :: [] ∧
      4 * (widxOf 0x010).toNat = 0x010 ∧ 4 * (widxOf 0x02C).toNat = 0x02C ∧ 4 * (widxOf 0x00C).toNat = 0x00C) ∧
    (∃ t, step (given [wr 0x02C 5] waiting) = .next t) ∧ ¬ EngineNext (given [wr 0x02C 5] waiting) ∧
    ¬ ∃ rest, (given [wr 0x02C 5] waiting).turns = .reset :: rest :=
  ⟨by decide, ⟨_, rfl⟩, not_engineNext_host (a := .write (widxOf 0x02C) 5) rfl, by
    rintro ⟨rest, h⟩
    cases h⟩

theorem witness_RegisterWritesAreIdempotent : 4 * (widxOf 0x010).toNat ≠ 0x00C ∧ 4 * (widxOf 0x004).toNat ≠ 0x00C := by
  decide

theorem witness_ReadAfterWriteReturnsTheWord : loaded.busy = false ∧ 0x010 ≤ 4 * (widxOf 0x010).toNat ∧
    4 * (widxOf 0x02C).toNat ≤ 0x02C ∧ widxOf 0x014 ≠ widxOf 0x010 ∧ 4 * (widxOf 0x014).toNat ≠ 0x008 := by
  decide

/-- A host write to DATA3 of an idle core: a step that is no reset, no Engine step and no write to a KEY word, to
STATUS or to CMD. -/
def writing : State := given [wr 0x02C 5] loaded

theorem writing_steps : ∃ t, step writing = .next t := ⟨_, rfl⟩

theorem writing_no_reset : ¬ ∃ rest, writing.turns = .reset :: rest := by
  rintro ⟨rest, h⟩
  cases h

theorem writing_no_engine : ¬ EngineNext writing := not_engineNext_host (a := .write (widxOf 0x02C) 5) rfl

theorem writing_no_key : ¬ ∃ (c : Fin 4) (v : Word) (rest : List Turn), NextWrites writing (0x010 + 4 * c.val) v rest := by
  rintro ⟨c, v, rest, h⟩
  have h' : widxOf 0x02C = widxOf (0x010 + 4 * c.val) := by
    unfold NextWrites at h
    have h'' : widxOf 0x02C = widxOf (0x010 + 4 * c.val) ∧ 5#32 = v := by
      simpa [writing, given, wr] using congrArg List.head? h
    exact h''.1
  clear h
  revert h' c
  decide

theorem witness_KeyChangesOnlyByHostOrReset : (∃ t, step writing = .next t) ∧
    (¬ ∃ rest, writing.turns = .reset :: rest) ∧ writing.keyv[(3 : Fin 4).val] = true ∧
    ¬ ∃ (c : Fin 4) (v : Word) (rest : List Turn), NextWrites writing (0x010 + 4 * c.val) v rest :=
  ⟨writing_steps, writing_no_reset, by decide, writing_no_key⟩

/-- An Engine step of EXPAND_KEY: it is no host write, and its OP is none of those that write DATA. -/
def expanding : State := accept ⟨0x01, 0⟩ (ready zeroBlock counting (allEntries zeroBlock))

theorem witness_DataChangesOnlyByHostEngineOrReset : (∃ t, step expanding = .next t) ∧
    (¬ ∃ rest, expanding.turns = .reset :: rest) ∧ expanding.datav[(3 : Fin 4).val] = true ∧ EngineNext expanding ∧
    (¬ ∃ (c : Fin 4) (v : Word) (rest : List Turn), NextWrites expanding (0x020 + 4 * c.val) v rest) ∧
    ¬ (EngineNext expanding ∧ ∃ p, expanding.pend = some p ∧ (p.op = 2 ∨ 4 ≤ p.op.toNat)) := by
  refine ⟨⟨_, rfl⟩, ?_, by decide, .inl rfl, ?_, ?_⟩
  · rintro ⟨rest, h⟩
    cases h
  · rintro ⟨c, v, rest, h⟩
    cases h
  · rintro ⟨_, p, h, hp⟩
    cases h
    revert hp
    decide

theorem witness_ScheduleChangesOnlyByKeyCommandsOrReset : (∃ t, step waiting = .next t) ∧
    (¬ ∃ rest, waiting.turns = .reset :: rest) ∧
    ¬ (EngineNext waiting ∧ ∃ p, waiting.pend = some p ∧ (p.op = 1 ∨ p.op = 3)) := by
  refine ⟨⟨_, rfl⟩, ?_, ?_⟩
  · rintro ⟨rest, h⟩
    cases h
  · rintro ⟨_, p, h, hp⟩
    cases h
    revert hp
    decide

/-- Each clause of R26: a reset, a KEY write, EXPAND_KEY, KEY_ROUND 9, and a step that is none of them. -/
theorem witness_EntryMaskChangesOnlyAsTheRuleLists :
    ((∃ t, step (given [.reset] loaded) = .next t) ∧ ∃ rest, (given [.reset] loaded).turns = .reset :: rest) ∧
    (NextWrites (given [wr 0x01C 5] loaded) (0x010 + 4 * (3 : Fin 4).val) 5 [] ∧ loaded.busy = false ∧
      ∃ t, step (given [wr 0x01C 5] loaded) = .next t) ∧
    (EngineNext expanding ∧ expanding.pend = some ⟨0x01, 0⟩ ∧ ∃ t, step expanding = .next t) ∧
    (EngineNext (accept ⟨0x03, 9⟩ loaded) ∧ (accept ⟨0x03, 9⟩ loaded).pend = some ⟨0x03, 9⟩ ∧
      ∃ t, step (accept ⟨0x03, 9⟩ loaded) = .next t) ∧
    ((∃ t, step writing = .next t) ∧ (¬ ∃ rest, writing.turns = .reset :: rest) ∧
      (¬ ∃ (c : Fin 4) (v : Word) (rest : List Turn),
        NextWrites writing (0x010 + 4 * c.val) v rest ∧ writing.busy = false) ∧
      ¬ (EngineNext writing ∧ ∃ p, writing.pend = some p ∧ (p.op = 1 ∨ p.op = 3))) :=
  ⟨⟨⟨_, rfl⟩, _, rfl⟩, ⟨rfl, rfl, _, rfl⟩, ⟨.inl rfl, rfl, _, rfl⟩, ⟨.inl rfl, rfl, _, rfl⟩, writing_steps,
    writing_no_reset, fun ⟨c, v, rest, h, _⟩ => writing_no_key ⟨c, v, rest, h⟩, fun h => writing_no_engine h.1⟩

theorem witness_ErrorFieldsChangeOnlyByRejectionClearOrReset : ∃ t, step writing = .next t := writing_steps

/-- Each clause of R30 and R31: a completion, an acceptance, a clear, and a reset. -/
theorem witness_DoneAndBusyChangeOnlyAsTheRulesSay :
    (∃ t, step waiting = .next t ∧ waiting.done = false ∧ t.done = true ∧ EngineNext waiting ∧ waiting.pend ≠ none ∧
      waiting.busy = true ∧ t.busy = false) ∧
    (∃ t, step (given [wr 0x00C 5] (finish waiting)) = .next t ∧ (finish waiting).done = true ∧ t.done = false ∧
      (finish waiting).busy = false ∧ t.busy = true) ∧
    (∃ t, step (given [wr 0x004 2] (finish waiting)) = .next t ∧ t.done = false) ∧
    ∃ t, step (given [.reset] waiting) = .next t ∧ t.busy = false :=
  ⟨⟨_, rfl, by decide, rfl, .inl rfl, by decide, rfl, rfl⟩, ⟨_, rfl, rfl, by decide +kernel, rfl, by decide +kernel⟩,
    ⟨_, rfl, by decide⟩, _, rfl, rfl⟩

/-- Both ends of the KEY and DATA words, and the offsets around them. -/
theorem witness_EachWriteRaisesOnlyTheCodesOfItsOffset : waiting.busy = true ∧ loaded.busy = false ∧
    4 * (widxOf 0x010).toNat = 0x010 ∧ 4 * (widxOf 0x02C).toNat = 0x02C ∧ 4 * (widxOf 0x030).toNat = 0x030 ∧
    4 * (widxOf 0x00C).toNat = 0x00C ∧ 4 * (widxOf 0x004).toNat = 0x004 ∧ 4 * (widxOf 0x008).toNat = 0x008 ∧
    IllegalWord 0x00000008 ∧ ¬ IllegalWord 0x00000108 := by
  unfold IllegalWord
  decide +kernel

/-- The rest of it: a legal word for each outcome of the preconditions while BUSY = 0. -/
theorem witness_EachWriteRaisesOnlyTheCodesOfItsOffset_causes : ¬ IllegalWord 2 ∧
    (∀ s ∈ [masks 0b0111 0 0 false, masks 0b1111 0b0111 0 false, masks 0b1111 0b1111 0x1FF false, loaded],
      s.busy = false) ∧
    check 2 (masks 0b0111 0 0 false) = some .keyLength ∧ check 2 (masks 0b1111 0b0111 0 false) = some .dataLength ∧
    check 2 (masks 0b1111 0b1111 0x1FF false) = some .schedule ∧ check 2 loaded = none := by
  refine ⟨?_, by decide +kernel, by decide +kernel, by decide +kernel, by decide +kernel, by decide +kernel⟩
  unfold IllegalWord
  decide +kernel

/-- A word that is rejected and one that is accepted, each with and without an Engine turn. -/
theorem witness_StatusTellsAcceptanceFromRejection :
    (given [wr 0x004 6, .host (.write cmdWidx 0), .engine] loaded).turns =
      .host (.write (widxOf 0x004) 6) :: .host (.write cmdWidx 0) :: [.engine] ∧
    (given [wr 0x004 6, .host (.write cmdWidx 2)] loaded).turns =
      .host (.write (widxOf 0x004) 6) :: .host (.write cmdWidx 2) :: [] ∧
    (given [wr 0x004 6, .host (.write cmdWidx 0), .engine] loaded).Inv ∧
    (given [wr 0x004 6, .host (.write cmdWidx 2)] loaded).Inv ∧
    check 0 loaded ≠ none ∧ check 2 loaded = none :=
  ⟨rfl, rfl, loaded_inv.withTurns _, loaded_inv.withTurns _, by decide +kernel, by decide +kernel⟩

theorem witness_StatusWordCanBeReadBack : loaded.Inv ∧ loaded.err = false ∧ (reject .addr loaded).Inv ∧
    (reject .addr loaded).err = true :=
  ⟨loaded_inv, rfl, loaded_inv.reject .addr, rfl⟩

theorem witness_ResetSetsEveryPieceOfState : (given [.reset, .engine] waiting).turns = .reset :: [.engine] ∧
    (∃ t, step writing = .next t) ∧ (¬ ∃ rest, writing.turns = .reset :: rest) ∧
    writing.keyv[(0 : Fin 4).val] = true ∧ writing.datav[(3 : Fin 4).val] = true :=
  ⟨rfl, writing_steps, writing_no_reset, by decide, by decide⟩

theorem witness_RegistersReadTheirResetValues : widxOf 0x3FC ≠ widxOf 0x000 ∧
    ¬ (0x400 ≤ 4 * (widxOf 0x3FC).toNat ∧ 4 * (widxOf 0x3FC).toNat ≤ 0x824) ∧
    ¬ (0x400 ≤ 4 * (widxOf 0x828).toNat ∧ 4 * (widxOf 0x828).toNat ≤ 0x824) := by
  decide

theorem witness_PendingCommandCompletes : (given [rd 0x004, wr 0x010 5] waiting).Inv ∧
    (given [rd 0x004, wr 0x010 5] waiting).pend ≠ none ∧
    Turn.reset ∉ (given [rd 0x004, wr 0x010 5] waiting).turns :=
  ⟨waiting_inv.withTurns _, by decide, by decide⟩

theorem witness_CompletionIsVisibleOnceBusyIsClear : waiting.Inv ∧ waiting.pend = some ⟨0x02, 0⟩ ∧
    Turn.reset ∉ waiting.turns.take 1 ∧ ∃ t, core.run 1 waiting = .next t ∧ t.busy = false :=
  ⟨waiting_inv, rfl, by decide, _, rfl, rfl⟩

theorem witness_KeyWriteBlocksTheCommandsThatNeedTheSchedule : loaded.busy = false ∧ loaded.datav = 0b1111 ∧
    (Instr.round 1).wf = true ∧ (Instr.addRoundKey 1).wf = true ∧ (Instr.keyRound 1).wf = true ∧
    (Instr.keyRound 9).wf = true ∧ (1 : Arg) ≠ 0 ∧
    (∀ c' : Fin 4, c' ≠ 0 → loaded.keyv[c'.val] = true) := by
  decide

theorem witness_EveryStepKeepsTheInvariant : waiting.Inv ∧ ∃ t, step waiting = .next t := ⟨waiting_inv, _, rfl⟩

theorem witness_NoStepStopsUnderTheInvariant : waiting.Inv := waiting_inv

theorem witness_ReachableStatesMeetTheInvariant : Reachable { State.reset with turns := [.reset] } :=
  .start [.reset]

theorem witness_InstancesAreIndependent : (∃ q, platformStep 1 [loaded, waiting] = .next q) ∧ (0 : Nat) ≠ 1 ∧
    ([loaded, waiting] : Platform)[1]? = some waiting :=
  ⟨⟨_, rfl⟩, by decide, rfl⟩

/-- The rest of it: a platform whose numbers are its positions, and windows that are apart. -/
theorem witness_InstancesAreIndependent_windows : (platformReset 1).numbered ∧ WindowsApart (platformReset 1).length ∧
    0 < (platformReset 1).length := by
  refine ⟨?_, ?_, by decide⟩
  · intro n s h
    match n with
    | 0 =>
      obtain rfl : _ = s := Option.some.inj h
      rfl
    | n + 1 => simp [platformReset] at h
  · intro i j hi hj hij
    simp [platformReset] at hi hj
    omega

end Sys2Proof.Tests
end

section
/-! PROOFS. What a pending command meets on its way: host accesses leave it pending and keep the invariant, and the
Engine's turn performs it. -/

namespace Sys2Proof.Machine

/-! ### The host's access, and the Engine's performing of a command -/

theorem step_host {s : State} {a : Access} {rest : List Turn} (h : s.turns = .host a :: rest) :
    step s = .next (hostAccess a (withTurns rest s)) := by
  cases a with
  | read w => exact step_read h
  | write w v => exact step_write h

/-- A host write keeps the invariant, whatever it writes and wherever (20_memory.md R64). -/
theorem State.Inv.busWrite {s : State} (h : s.Inv) (w : Widx) (v : Word) : (busWrite w v s).Inv := by
  rcases busWrite_outcomes w v s with ⟨e, he⟩ | ⟨-, he⟩ | ⟨-, -, hc, he⟩ | ⟨c, -, hb, he⟩ | ⟨c, -, hb, he⟩ <;> rw [he]
  · exact h.reject e
  · exact h.writeStatus v
  · exact h.accept hc
  · exact h.storeKey hb c v
  · exact h.storeData hb c v

/-- A host access keeps the invariant (20_memory.md R67). -/
theorem State.Inv.hostAccess {s : State} (h : s.Inv) (a : Access) : (hostAccess a s).Inv := by
  cases a with
  | read w => exact h.hostRead w
  | write w v => exact h.busWrite w v

/-- No host access takes a turn of another agent (20_memory.md R70). -/
@[simp] theorem hostAccess_turns (a : Access) (s : State) : (hostAccess a s).turns = s.turns := by
  cases a with
  | read w => rfl
  | write w v =>
    rcases busWrite_outcomes w v s with ⟨e, he⟩ | ⟨-, he⟩ | ⟨-, -, -, he⟩ | ⟨c, -, -, he⟩ | ⟨c, -, -, he⟩ <;>
      simp [hostAccess, he]

/-- While BUSY = 1 no host access changes what is pending (20_memory.md R63). -/
theorem hostAccess_pend_of_busy (a : Access) {s : State} (hb : s.busy = true) : (hostAccess a s).pend = s.pend := by
  cases a with
  | read w => rfl
  | write w v =>
    rcases busWrite_outcomes w v s with ⟨e, he⟩ | ⟨-, he⟩ | ⟨-, hb', -, -⟩ | ⟨c, -, hb', -⟩ | ⟨c, -, hb', -⟩
    · simp [hostAccess, he]
    · simp [hostAccess, he]
    all_goals exact absurd (hb.symm.trans hb') (by decide)

theorem finish_finished (s : State) : Finished (finish s) := ⟨rfl, rfl, rfl⟩

/-- Every well-formed command completes from every state (30_encoding.md R87: "It cannot fail"). -/
theorem exec_completes {i : Instr} (hi : i.wf = true) (s : State) : ∃ t, exec i s = .next t ∧ Finished t := by
  cases i with
  | expandKey => exact ⟨_, exec_expandKey s, finish_finished _⟩
  | encrypt => exact ⟨_, exec_encrypt s, finish_finished _⟩
  | keyRound r =>
    have hr : r.toNat ≤ 9 := by simpa [Instr.wf] using hi
    exact ⟨_, exec_keyRound s r (by omega), finish_finished _⟩
  | addRoundKey k =>
    have hk : k.toNat ≤ 10 := by simpa [Instr.wf] using hi
    exact ⟨_, exec_addRoundKey s k (by omega), finish_finished _⟩
  | subBytes => exact ⟨_, exec_subBytes s, finish_finished _⟩
  | shiftRows => exact ⟨_, exec_shiftRows s, finish_finished _⟩
  | mixColumns => exact ⟨_, exec_mixColumns s, finish_finished _⟩
  | round j =>
    have hj : 1 ≤ j.toNat ∧ j.toNat ≤ 10 := by simpa [Instr.wf] using hi
    exact ⟨_, exec_round s j hj.1 (by omega), finish_finished _⟩

/-- The Engine's turn completes the pending command: the invariant says that the pair in PEND names one
(30_encoding.md R88). -/
theorem step_engine_completes {s : State} (h : s.Inv) (hp : s.pend ≠ none) (he : EngineNext s) :
    ∃ t, step s = .next t ∧ Finished t := by
  obtain ⟨p, hp⟩ := Option.ne_none_iff_exists'.mp hp
  obtain ⟨i, hi, -⟩ := h.pending_ready p hp
  rw [step_engine he, engineStep_some (by simpa using hp) hi]
  exact exec_completes (decodeFields_ok hi).1 _

/-- The invariant, read at a pending command: BUSY = 1 (10_state.md R30). -/
theorem State.Inv.busy_of_pending {s : State} (h : s.Inv) (hp : s.pend ≠ none) : s.busy = true := by
  rw [h.busy_iff_pending]
  exact Option.isSome_iff_ne_none.mpr hp

/-! ### Completion within the turns to come -/

/-- By induction on the turns to come: a host access leaves the command pending, and the Engine's turn, at the latest
the one after the last of them (log 2), performs it. -/
theorem pending_completes (ts : List Turn) : ∀ s : State, s.turns = ts → s.Inv → s.pend ≠ none → Turn.reset ∉ ts →
    ∃ n t, n ≤ ts.length + 1 ∧ core.run n s = .next t ∧ Finished t := by
  induction ts with
  | nil =>
    intro s hs h hp _
    obtain ⟨t, ht, hf⟩ := step_engine_completes h hp (engineNext_nil hs)
    exact ⟨1, t, by simp, run_succ 0 ht, hf⟩
  | cons turn rest ih =>
    intro s hs h hp hr
    cases turn with
    | host a =>
      have hp' : (hostAccess a (withTurns rest s)).pend ≠ none := by
        rw [hostAccess_pend_of_busy a (by simpa using h.busy_of_pending hp)]
        exact hp
      obtain ⟨n, t, hn, ht, hf⟩ := ih (hostAccess a (withTurns rest s)) (by simp) ((h.withTurns rest).hostAccess a) hp'
        (List.not_mem_of_not_mem_cons hr)
      exact ⟨n + 1, t, by simpa using hn, (run_succ n (step_host hs)).trans ht, hf⟩
    | engine =>
      obtain ⟨t, ht, hf⟩ := step_engine_completes h hp (engineNext_cons hs)
      exact ⟨1, t, by simp, run_succ 0 ht, hf⟩
    | reset => simp at hr

/-- Settles O53: the induction on the turns to come, at the state's own turns. -/
theorem pendingCommandCompletes : Obligations.PendingCommandCompletes := by
  intro s h hp hr
  obtain ⟨n, t, hn, ht, hf⟩ := pending_completes s.turns s rfl h hp hr
  exact ⟨n, t, hn, ht, hf.pend, hf.done⟩

end Sys2Proof.Machine
end

section
/-! PROOFS. Several instances of the core: a step of a platform is a step of one of them, reset numbers them by
position, and an address of a window leads to one instance only. -/

namespace Sys2Proof.Machine

/-! ### One step of a platform -/

/-- Everything a platform step that goes on can do: it names no instance and nothing moves, or it is the step of the
instance it names. -/
theorem platformStep_cases {n : Nat} {p q : Platform} (h : platformStep n p = .next q) :
    (p[n]? = none ∧ q = p) ∨ ∃ s t, p[n]? = some s ∧ step s = .next t ∧ q = p.set n t := by
  unfold platformStep at h
  cases hn : p[n]? with
  | none => exact .inl ⟨rfl, by simpa [hn] using h.symm⟩
  | some s =>
    cases hs : step s with
    | next t => exact .inr ⟨s, t, rfl, hs, by simpa [hn, hs] using h.symm⟩
    | fault f => simp [hn, hs] at h
    | refused r => simp [hn, hs] at h

section
variable {n : Nat} {p q : Platform} (h : platformStep n p = .next q)
include h

theorem platformStep_other {m : Nat} (hm : m ≠ n) : q[m]? = p[m]? := by
  rcases platformStep_cases h with ⟨-, rfl⟩ | ⟨s, t, -, -, rfl⟩
  · rfl
  · exact List.getElem?_set_ne hm.symm

theorem platformStep_self {s : State} (hs : p[n]? = some s) : ∃ t, step s = .next t ∧ q[n]? = some t := by
  rcases platformStep_cases h with ⟨hn, -⟩ | ⟨s', t, hs', ht, rfl⟩
  · simp [hn] at hs
  · obtain rfl : s' = s := Option.some.inj (hs'.symm.trans hs)
    exact ⟨t, ht, List.getElem?_set_self (List.getElem?_eq_some_iff.mp hs).1⟩

theorem platformStep_length : q.length = p.length := by
  rcases platformStep_cases h with ⟨-, rfl⟩ | ⟨s, t, -, -, rfl⟩ <;> simp

/-- A step keeps the numbers: of the instance that moves by `step_number`, of the others since they stay. -/
theorem platformStep_numbered (hp : p.numbered) : q.numbered := by
  intro m u hu
  by_cases hm : m = n
  · subst hm
    rcases platformStep_cases h with ⟨-, rfl⟩ | ⟨s, _, hs, -, -⟩
    · exact hp m u hu
    · obtain ⟨t, ht, hq⟩ := platformStep_self h hs
      obtain rfl : t = u := Option.some.inj (hq.symm.trans hu)
      rw [step_number ht, hp m s hs]
  · exact hp m u (platformStep_other h hm ▸ hu)
end

/-! ### The platform at reset -/

theorem platformReset_numbered (n : Nat) : (platformReset n).numbered := by
  intro i s hs
  obtain ⟨j, hj, rfl⟩ : ∃ j, (List.range n)[i]? = some j ∧ { State.reset with number := j } = s := by
    simpa only [platformReset, List.getElem?_map, Option.map_eq_some_iff] using hs
  obtain ⟨-, rfl⟩ := List.getElem?_eq_some_iff.mp hj
  simp

theorem platformReset_sameCore {n : Nat} {s : State} (hs : s ∈ platformReset n) : SameCore State.reset s := by
  obtain ⟨i, -, rfl⟩ := List.mem_map.mp hs
  exact ⟨rfl, rfl, rfl, rfl, rfl, rfl, rfl, rfl, rfl, rfl, rfl⟩

/-! ### The windows -/

/-- The place at an address is a word of the window of one of the instances. -/
theorem placeAt_eq_some {p : Platform} {address : Nat} {l : Place} (h : placeAt p address = some l) :
    l.number < p.length ∧ widxAt l.number address = some l.widx := by
  obtain ⟨j, hj, hl⟩ := List.exists_of_findSome?_eq_some h
  obtain ⟨v, hv, rfl⟩ := Option.map_eq_some_iff.mp hl
  exact ⟨List.mem_range.mp hj, hv⟩

/-- An address in the window of an instance has a place. -/
theorem placeAt_ne_none {p : Platform} {i address : Nat} {w : Widx} (hi : i < p.length)
    (hw : widxAt i address = some w) : placeAt p address ≠ none := by
  intro h
  have := List.findSome?_eq_none_iff.mp h i (List.mem_range.mpr hi)
  simp [hw] at this

/-- Where the windows are apart, each address of an instance's window leads to that instance and word (20_memory.md R51;
60_exceptions.md R185). -/
theorem placeAt_platformAddress {p : Platform} (hp : WindowsApart p.length) {i : Nat} (hi : i < p.length) (w : Widx) :
    placeAt p (platformAddress i w) = some ⟨i, w⟩ := by
  have hw := widxAt_platformAddress i w
  obtain ⟨⟨j, v⟩, hl⟩ := Option.ne_none_iff_exists'.mp (placeAt_ne_none hi hw)
  obtain ⟨hj, hv⟩ := placeAt_eq_some hl
  have hij : i = j := by
    by_contra hij
    simp [widxAt_other hp hi hj hij w] at hv
  subst hij
  obtain rfl : w = v := Option.some.inj (hw.symm.trans hv)
  exact hl

/-- Settles O60: a platform step is a step of one instance, which keeps its number; reset numbers the instances by
position; and where windows are apart an address leads to one instance only. -/
theorem instancesAreIndependent : Obligations.InstancesAreIndependent := by
  refine ⟨fun p q n h => ⟨fun m hm => platformStep_other h hm, fun s hs => platformStep_self h hs,
    platformStep_length h, platformStep_numbered h⟩, fun n => ⟨platformReset_numbered n, ?_, ?_⟩, ?_⟩
  · simp [platformReset]
  · exact fun s hs => platformReset_sameCore hs
  · exact fun p i w hp hi => placeAt_platformAddress hp hi w

end Sys2Proof.Machine
end

section
/-! PROOFS. The invariant: it holds at reset, every step keeps it, and no step stops where it holds. So every reachable
state meets it. What it says of STATUS and of an accepted ENCRYPT follows. -/

namespace Sys2Proof.Machine

namespace State.Inv

variable {s : State}

/-! ### What the Engine writes keeps the invariant -/

/-- A result that goes to DATA: no part of the invariant speaks of DATA (42_cipher_engine.md R149). -/
theorem setData (h : s.Inv) (b : Block) : (setData b s).Inv where
  busy_iff_pending := h.busy_iff_pending
  err_iff_code := h.err_iff_code
  code_produced := h.code_produced
  entries_first := h.entries_first
  entries_key := h.entries_key
  entries_derived := h.entries_derived
  pending_ready := by
    intro p hp
    obtain ⟨i, hi, hck⟩ := h.pending_ready p hp
    exact ⟨i, hi, (checkState_congr i rfl rfl rfl).trans hck⟩

/-- EXPAND_KEY with a whole key: all ten entries are valid and derived from it (41_key_schedule.md R126). -/
theorem finish_setSchedule (h : s.Inv) (hk : s.keyv = 0b1111) :
    (Machine.finish (setSchedule (expandKey s.key) s)).Inv where
  busy_iff_pending := rfl
  err_iff_code := h.err_iff_code
  code_produced := h.code_produced
  entries_first := ⟨10, le_refl 10, entries_all⟩
  entries_key := fun _ => hk
  entries_derived := fun _ _ => rfl
  pending_ready := by simp

/-- KEY_ROUND r, with the entry before r valid, derives the entry r of the key's own schedule (10_state.md R27 (c)). -/
theorem keyRound_roundKey (h : s.Inv) {r : Nat} (hr : r < 10) (hprev : r ≠ 0 → s.rkv.getLsbD (r - 1) = true) :
    keyRound (roundKey ⟨r, Nat.lt_succ_of_lt hr⟩ s) ⟨r, hr⟩ = (expandKey s.key)[r] := by
  cases r with
  | zero => rw [roundKey_zero, expandKey_zero]; rfl
  | succ n =>
    have hn : s.rkv[n] = true := by simpa [BitVec.getLsbD_eq_getElem (by omega : n < 10)] using hprev (by simp)
    have hd : s.rk[n] = (expandKey s.key)[n] := h.entries_derived ⟨n, by omega⟩ hn
    rw [roundKey_succ, hd, expandKey_succ]

/-- KEY_ROUND r with a whole key, with the entry before r valid: the valid entries are still a first part of the key's
own schedule (41_key_schedule.md R127). -/
theorem finish_setEntry (h : s.Inv) (hk : s.keyv = 0b1111) {r : Nat} (hr : r < 10)
    (hprev : r ≠ 0 → s.rkv.getLsbD (r - 1) = true) :
    (Machine.finish (setEntry ⟨r, hr⟩ (keyRound (roundKey ⟨r, Nat.lt_succ_of_lt hr⟩ s) ⟨r, hr⟩) s)).Inv where
  busy_iff_pending := rfl
  err_iff_code := h.err_iff_code
  code_produced := h.code_produced
  entries_first := by
    obtain ⟨n, hn, hrkv⟩ := h.entries_first
    have hle : r ≤ n := by
      by_cases h0 : r = 0
      · omega
      · have := entry_lt hn (hrkv ▸ hprev h0)
        omega
    refine ⟨max n (r + 1), by omega, ?_⟩
    rw [finish_rkv, setEntry_rkv, hrkv]
    exact markEntry_firstEntries n hn ⟨r, hr⟩ hle
  entries_key := fun _ => hk
  entries_derived := by
    intro q hq
    simp only [finish_rk, finish_key, setEntry_rk, setEntry_key, h.keyRound_roundKey hr hprev, Fin.getElem_fin]
    by_cases hqr : r = q.val
    · simp [hqr]
    · rw [Vector.getElem_set_ne hr q.isLt hqr]
      have hq' : s.rkv[q.val] = true := by
        simpa [getElem_markEntry, Fin.ext_iff, Ne.symm hqr] using hq
      exact h.entries_derived q hq'
  pending_ready := by simp

/-! ### Every step -/

/-- A command whose preconditions hold keeps the invariant (30_encoding.md R84, R88). -/
theorem exec (h : s.Inv) {i : Instr} {t : State} (hc : checkState i s = none) (he : Machine.exec i s = .next t) :
    t.Inv := by
  rcases exec_next_cases he with ⟨rfl, rfl⟩ | ⟨r, hr, rfl, rfl⟩ | ⟨b, -, -, rfl⟩
  · exact h.finish_setSchedule (checkState_key hc rfl)
  · refine h.finish_setEntry (checkState_key hc rfl) hr fun h0 => checkState_entry hc ?_
    have hr0 : r ≠ 0 := fun e => h0 (congrArg BitVec.toNat e)
    rw [needsEntries, entryBefore, if_neg hr0]
    exact List.mem_singleton.mpr rfl
  · exact (h.setData b).finish

theorem step (h : s.Inv) {t : State} (ht : Machine.step s = .next t) : t.Inv := by
  rcases step_cases ht with ⟨w, rest, -, rfl⟩ | ⟨w, v, rest, -, rfl⟩ | ⟨rest, -, rfl⟩ | ⟨-, -, rfl⟩ |
    ⟨p, i, -, hp, hi, he⟩
  · exact (h.withTurns rest).hostRead w
  · exact (h.withTurns rest).busWrite w v
  · exact resetCore_inv _
  · exact h.withTurns _
  · obtain ⟨j, hj, hck⟩ := h.pending_ready p hp
    obtain rfl : i = j := Except.ok.inj (hi.symm.trans hj)
    exact (h.withTurns s.turns.tail).exec ((checkState_congr i rfl rfl rfl).trans hck) he

/-- No step stops where the invariant holds: what is pending names a command (30_encoding.md R88). -/
theorem step_goes_on (h : s.Inv) : ∃ t, Machine.step s = .next t := by
  rcases turn_cases s with ⟨w, rest, hs⟩ | ⟨w, v, rest, hs⟩ | ⟨rest, hs⟩ | he
  · exact ⟨_, step_read hs⟩
  · exact ⟨_, step_write hs⟩
  · exact ⟨_, step_reset hs⟩
  · by_cases hp : s.pend = none
    · exact ⟨_, (step_engine he).trans (engineStep_none hp)⟩
    · obtain ⟨t, ht, -⟩ := step_engine_completes h hp he
      exact ⟨t, ht⟩

end State.Inv

/-- Settles O57: the step lemma of the invariant. -/
theorem everyStepKeepsTheInvariant : Obligations.EveryStepKeepsTheInvariant :=
  fun _ _ h ht => h.step ht

/-- Settles O56: the reset step reaches the reset state from itself. -/
theorem invariantHoldsAtReset : Obligations.InvariantHoldsAtReset :=
  resetCore_inv State.reset

/-- By induction on the run from reset. -/
theorem Reachable.inv {s : State} (h : Reachable s) : s.Inv := by
  induction h with
  | start ts => exact invariantHoldsAtReset.withTurns ts
  | step s t _ ht ih => exact ih.step ht

/-- Settles O59: a reachable state meets the invariant, and there every step goes on. -/
theorem reachableStatesMeetTheInvariant : Obligations.ReachableStatesMeetTheInvariant :=
  fun _ h => ⟨h.inv, h.inv.step_goes_on⟩

/-! ### An accepted ENCRYPT -/

/-- Where every entry is valid, the schedule is the key's own (10_state.md R27 (c)). -/
theorem State.Inv.rk_eq_expandKey {s : State} (h : s.Inv) (hall : ∀ q < 10, s.rkv.getLsbD q = true) :
    s.rk = expandKey s.key := by
  apply Vector.ext
  intro q hq
  exact h.entries_derived ⟨q, hq⟩ (by simpa [BitVec.getLsbD_eq_getElem hq] using hall q hq)

/-- Settles O26: ENCRYPT needs all ten entries, so the schedule it uses is the key's own. -/
theorem acceptedEncryptUsesTheScheduleOfItsKey : Obligations.AcceptedEncryptUsesTheScheduleOfItsKey := by
  intro s h hc
  have hrk : s.rk = expandKey s.key := h.rk_eq_expandKey fun q hq => checkState_entry hc (List.mem_range.mpr hq)
  refine ⟨_, exec_encrypt s, ?_⟩
  rw [finish_data, setData_data, hrk]

/-! ### The host's reading of STATUS -/

/-- The host reads back the fields of a STATUS word whose code is one of 0..6 (10_state.md R29). -/
theorem statusView_statusWord {s : State} (h : s.errcode.toNat ≤ 6) :
    statusView (statusWord s) = some ⟨s.busy, s.done, s.err, ErrCode.ofCode s.errcode⟩ := by
  have fields : ∀ (code : BitVec 4) (err done busy : Bool), code.toNat ≤ 6 →
      statusView (0#24 ++ code ++ 0#1 ++ BitVec.ofBool err ++ BitVec.ofBool done ++ BitVec.ofBool busy
        : BitVec (24 + 4 + 1 + 1 + 1 + 1)) = some ⟨busy, done, err, ErrCode.ofCode code⟩ := by
    decide +kernel
  exact fields _ _ _ _ h

/-- Each of the codes 1..6 is the code of the rejection it names (60_exceptions.md R172). -/
theorem ErrCode.ofCode_map_code : ∀ n : BitVec 4, n ≠ 0 → n.toNat ≤ 6 →
    (ErrCode.ofCode n).map ErrCode.code = some n := by
  decide

/-- Settles O50: the invariant bounds ERRCODE, and ties code 0 to ERR = 0. -/
theorem statusWordCanBeReadBack : Obligations.StatusWordCanBeReadBack := by
  intro s h
  refine ⟨ErrCode.ofCode s.errcode, statusView_statusWord h.code_produced, fun he => ?_, fun he => ?_⟩
  · rw [h.err_iff_code.mp he]
    rfl
  · have hne : s.errcode ≠ 0 := fun h0 => by simp [h.err_iff_code.mpr h0] at he
    exact Option.map_eq_some_iff.mp (ErrCode.ofCode_map_code _ hne h.code_produced)

end Sys2Proof.Machine
end

section
/-! PROOFS. Which steps change which registers (10_state.md R21 to R32). The effects of a step are said once, as an
inductive relation with one case per rule, and each statement is a case split over it. -/

namespace Sys2Proof.Machine

/-! ### The effects of a step -/

/-- The OP of a command that is neither EXPAND_KEY nor KEY_ROUND is that of a data-path command (30_encoding.md R81). -/
theorem opcode_dataPath {i : Instr} (h1 : i ≠ .expandKey) (h3 : ∀ r, i ≠ .keyRound r) :
    i.opcode = 2 ∨ 4 ≤ i.opcode.toNat := by
  cases i <;> simp_all [Instr.opcode]

/-- What a step of the Engine with `p` pending does, by the OP of `p` (30_encoding.md R88). -/
theorem engine_performs {s t : State} {p : Pending} (h : step s = .next t) (he : EngineNext s) (hp : s.pend = some p) :
    (∃ S, p.op = 1 ∧ t = finish (setSchedule S (withTurns s.turns.tail s))) ∨
    (∃ (hr : p.arg.toNat < 10) (b : Block), p.op = 3 ∧
      t = finish (setEntry ⟨p.arg.toNat, hr⟩ b (withTurns s.turns.tail s))) ∨
    (∃ b, (p.op = 2 ∨ 4 ≤ p.op.toNat) ∧ t = finish (setData b (withTurns s.turns.tail s))) := by
  rw [step_engine he] at h
  cases hi : decodeFields p.op p.arg with
  | error e => simp [engineStep, hp, hi] at h
  | ok i =>
    rw [engineStep_some (s := withTurns s.turns.tail s) hp hi] at h
    obtain ⟨-, hop, harg⟩ := decodeFields_ok hi
    rcases exec_next_cases h with ⟨rfl, rfl⟩ | ⟨r, hr, rfl, rfl⟩ | ⟨b, h1, h3, rfl⟩
    · exact .inl ⟨_, hop, rfl⟩
    · obtain rfl : p.arg = r := harg
      exact .inr (.inl ⟨hr, _, hop, rfl⟩)
    · exact .inr (.inr ⟨b, hop ▸ opcode_dataPath h1 h3, rfl⟩)

/-- What a step can do to a core, one case per rule. -/
inductive StepEffect (s : State) : State → Prop
  /-- A host read (20_memory.md R66). -/
  | read (w : Widx) (rest : List Turn) (ht : s.turns = .host (.read w) :: rest) :
    StepEffect s (hostRead w (withTurns rest s))
  /-- A host write that is rejected (60_exceptions.md R171). -/
  | rejected (w : Widx) (v : Word) (rest : List Turn) (e : ErrCode) (ht : s.turns = .host (.write w v) :: rest) :
    StepEffect s (reject e (withTurns rest s))
  /-- A host write to STATUS (20_memory.md R57). -/
  | statusWritten (v : Word) (rest : List Turn) (hw : NextWrites s 0x004 v rest) :
    StepEffect s (writeStatus v (withTurns rest s))
  /-- The acceptance of a command (30_encoding.md R86). -/
  | accepted (v : Word) (rest : List Turn) (hw : NextWrites s 0x00C v rest) (hb : s.busy = false)
    (hc : check v s = none) : StepEffect s (accept ⟨opOf v, argOf v⟩ (withTurns rest s))
  /-- A host write to a KEY word (20_memory.md R58). -/
  | keyWritten (c : Fin 4) (v : Word) (rest : List Turn) (hw : NextWrites s (0x010 + 4 * c.val) v rest)
    (hb : s.busy = false) : StepEffect s (storeKey c v (withTurns rest s))
  /-- A host write to a DATA word (20_memory.md R59). -/
  | dataWritten (c : Fin 4) (v : Word) (rest : List Turn) (hw : NextWrites s (0x020 + 4 * c.val) v rest)
    (hb : s.busy = false) : StepEffect s (storeData c v (withTurns rest s))
  /-- The reset (70_reset_and_hazards.md R200). -/
  | reset (rest : List Turn) (ht : s.turns = .reset :: rest) : StepEffect s (resetCore (withTurns rest s))
  /-- A turn of the Engine with nothing pending (log 3). -/
  | idle (he : EngineNext s) (hp : s.pend = none) : StepEffect s (withTurns s.turns.tail s)
  /-- The Engine performs EXPAND_KEY (41_key_schedule.md R126). -/
  | schedule (p : Pending) (S : Schedule) (he : EngineNext s) (hp : s.pend = some p) (hop : p.op = 1) :
    StepEffect s (finish (setSchedule S (withTurns s.turns.tail s)))
  /-- The Engine performs KEY_ROUND (41_key_schedule.md R127). -/
  | entry (p : Pending) (hr : p.arg.toNat < 10) (b : Block) (he : EngineNext s) (hp : s.pend = some p)
    (hop : p.op = 3) : StepEffect s (finish (setEntry ⟨p.arg.toNat, hr⟩ b (withTurns s.turns.tail s)))
  /-- The Engine performs a data-path command (42_cipher_engine.md R149). -/
  | block (p : Pending) (b : Block) (he : EngineNext s) (hp : s.pend = some p) (hop : p.op = 2 ∨ 4 ≤ p.op.toNat) :
    StepEffect s (finish (setData b (withTurns s.turns.tail s)))

theorem step_effect {s t : State} (h : step s = .next t) : StepEffect s t := by
  rcases step_cases h with ⟨w, rest, ht, rfl⟩ | ⟨w, v, rest, ht, rfl⟩ | ⟨rest, ht, rfl⟩ | ⟨he, hp, rfl⟩ |
    ⟨p, -, he, hp, -, -⟩
  · exact .read w rest ht
  · rcases busWrite_outcomes w v (withTurns rest s) with ⟨e, h⟩ | ⟨rfl, h⟩ | ⟨rfl, hb, hc, h⟩ | ⟨c, rfl, hb, h⟩ |
      ⟨c, rfl, hb, h⟩ <;> rw [h]
    · exact .rejected w v rest e ht
    · exact .statusWritten v rest ht
    · exact .accepted v rest ht hb ((check_congr v rfl rfl rfl).trans hc)
    · exact .keyWritten c v rest ht hb
    · exact .dataWritten c v rest ht hb
  · exact .reset rest ht
  · exact .idle he hp
  · rcases engine_performs h he hp with ⟨S, hop, rfl⟩ | ⟨hr, b, hop, rfl⟩ | ⟨b, hop, rfl⟩
    · exact .schedule p S he hp hop
    · exact .entry p hr b he hp hop
    · exact .block p b he hp hop

/-! ### KEY, DATA and RK -/

/-- A bit of a mask of words written stays set when a word is marked (10_state.md R22, R24). -/
theorem getElem_markWord_of_set {m : BitVec 4} {d : Fin 4} (h : m[d.val] = true) (c : Fin 4) :
    (markWord m c)[d.val] = true := by
  rw [getElem_markWord, h, Bool.true_or]

/-- Settles O42: of all effects but reset, only a write to a KEY word touches KEY and KEYV. -/
theorem keyChangesOnlyByHostOrReset : Obligations.KeyChangesOnlyByHostOrReset := by
  intro s t h hnr
  cases step_effect h with
  | keyWritten c v rest hw hb =>
    exact ⟨fun d hd => getElem_markWord_of_set hd c, fun hno => absurd ⟨c, v, rest, hw⟩ hno⟩
  | reset rest ht => exact absurd ⟨rest, ht⟩ hnr
  | _ => simp

/-- Settles O43: of all effects but reset, only a write to a DATA word and a data-path command touch DATA, and only the
first touches DATAV. -/
theorem dataChangesOnlyByHostEngineOrReset : Obligations.DataChangesOnlyByHostEngineOrReset := by
  intro s t h hnr
  cases step_effect h with
  | dataWritten c v rest hw hb =>
    exact ⟨fun d hd => getElem_markWord_of_set hd c, fun he => absurd he (not_engineNext_host hw),
      fun hno => absurd ⟨c, v, rest, hw⟩ hno⟩
  | block p b he hp hop => exact ⟨fun _ hd => hd, fun _ => rfl, fun _ hno => absurd ⟨he, p, hp, hop⟩ hno⟩
  | reset rest ht => exact absurd ⟨rest, ht⟩ hnr
  | _ => simp

/-- Settles O44: of all effects but reset, only those of EXPAND_KEY and KEY_ROUND touch RK. -/
theorem scheduleChangesOnlyByKeyCommandsOrReset : Obligations.ScheduleChangesOnlyByKeyCommandsOrReset := by
  intro s t h hnr hno
  cases step_effect h with
  | schedule p S he hp hop => exact absurd ⟨he, p, hp, .inl hop⟩ hno
  | entry p hr b he hp hop => exact absurd ⟨he, p, hp, .inr hop⟩ hno
  | reset rest ht => exact absurd ⟨rest, ht⟩ hnr
  | _ => simp

/-! ### RKV -/

/-- A write to a KEY word while BUSY = 0 is stored (20_memory.md R58). -/
theorem step_keyWrite {s t : State} (h : step s = .next t) {c : Fin 4} {v : Word} {rest : List Turn}
    (hw : NextWrites s (0x010 + 4 * c.val) v rest) (hb : s.busy = false) : t = storeKey c v (withTurns rest s) := by
  rw [step_write hw, busWrite, region_key] at h
  simpa [writeKey, hb] using h.symm

/-- EXPAND_KEY makes every entry valid (41_key_schedule.md R126). -/
theorem rkv_of_expandKey {s t : State} {p : Pending} (h : step s = .next t) (he : EngineNext s) (hp : s.pend = some p)
    (h1 : p.op = 1) : t.rkv = 0x3FF := by
  rcases engine_performs h he hp with ⟨S, -, rfl⟩ | ⟨hr, b, hop, rfl⟩ | ⟨b, hop, rfl⟩
  · rfl
  · simp [h1] at hop
  · simp [h1] at hop

/-- KEY_ROUND makes its own entry valid (41_key_schedule.md R127). -/
theorem rkv_of_keyRound {s t : State} {p : Pending} (h : step s = .next t) (he : EngineNext s) (hp : s.pend = some p)
    (h3 : p.op = 3) (q : Fin 10) : t.rkv[q.val] = (s.rkv[q.val] || decide (q.val = p.arg.toNat)) := by
  rcases engine_performs h he hp with ⟨S, hop, rfl⟩ | ⟨hr, b, -, rfl⟩ | ⟨b, hop, rfl⟩
  · simp [h3] at hop
  · simp [getElem_markEntry, Fin.ext_iff]
  · simp [h3] at hop

/-- Settles O45: the mask after each effect that touches it; the others leave it. -/
theorem entryMaskChangesOnlyAsTheRuleLists : Obligations.EntryMaskChangesOnlyAsTheRuleLists := by
  intro s t h
  refine ⟨fun ⟨rest, ht⟩ => ?_, fun hnr => ⟨fun c v rest hw hb => ?_, fun p he hp h1 => rkv_of_expandKey h he hp h1,
    fun p q he hp h3 => rkv_of_keyRound h he hp h3 q, fun hnk hne => ?_⟩⟩
  · obtain rfl : resetCore (withTurns rest s) = t := by simpa [step_reset ht] using h
    rfl
  · rw [step_keyWrite h hw hb, storeKey_rkv]
  · cases step_effect h with
    | keyWritten c v rest hw hb => exact absurd ⟨c, v, rest, hw, hb⟩ hnk
    | schedule p S he hp hop => exact absurd ⟨he, p, hp, .inl hop⟩ hne
    | entry p hr b he hp hop => exact absurd ⟨he, p, hp, .inr hop⟩ hne
    | reset rest ht => exact absurd ⟨rest, ht⟩ hnr
    | _ => simp

/-! ### ERR, ERRCODE, DONE and BUSY -/

/-- Settles O46: of all effects, a rejection, a write to STATUS and a reset touch ERR and ERRCODE. -/
theorem errorFieldsChangeOnlyByRejectionClearOrReset : Obligations.ErrorFieldsChangeOnlyByRejectionClearOrReset := by
  intro s t h
  cases step_effect h with
  | rejected w v rest e ht => exact .inr (.inl ⟨w, v, rest, e, ht, rfl⟩)
  | statusWritten v rest hw =>
    by_cases hv : v[2] = true
    · exact .inr (.inr (.inl ⟨v, rest, hw, hv, by simp [hv], by simp [hv]⟩))
    · exact .inl (by simp [hv])
  | reset rest ht => exact .inr (.inr (.inr ⟨rest, ht, rfl, rfl⟩))
  | _ => exact .inl (by simp)

/-- A step of the Engine with a command pending completes it (30_encoding.md R87). -/
theorem engine_completes {s t : State} (h : step s = .next t) (he : EngineNext s) (hp : s.pend ≠ none) :
    t.done = true ∧ t.busy = false := by
  obtain ⟨p, hp⟩ := Option.ne_none_iff_exists'.mp hp
  rcases engine_performs h he hp with ⟨S, -, rfl⟩ | ⟨hr, b, -, rfl⟩ | ⟨b, -, rfl⟩ <;> exact ⟨rfl, rfl⟩

/-- Everything a step can do to DONE and BUSY: the Engine completes a command, a command is accepted, a write to STATUS
clears DONE, the reset clears both, or both stay (10_state.md R30, R31). -/
theorem done_busy_cases {s t : State} (h : step s = .next t) :
    (EngineNext s ∧ s.pend ≠ none) ∨
    (∃ v rest, NextWrites s 0x00C v rest ∧ s.busy = false ∧ check v s = none ∧ t.done = false) ∨
    (∃ v rest, NextWrites s 0x004 v rest ∧ v[1] = true ∧ t.done = false ∧ t.busy = s.busy) ∨
    (∃ rest, s.turns = .reset :: rest ∧ t.done = false ∧ t.busy = false) ∨
    (t.done = s.done ∧ t.busy = s.busy) := by
  cases step_effect h with
  | schedule p S he hp hop => exact .inl ⟨he, by simp [hp]⟩
  | entry p hr b he hp hop => exact .inl ⟨he, by simp [hp]⟩
  | block p b he hp hop => exact .inl ⟨he, by simp [hp]⟩
  | accepted v rest hw hb hc => exact .inr (.inl ⟨v, rest, hw, hb, hc, rfl⟩)
  | statusWritten v rest hw =>
    by_cases hv : v[1] = true
    · exact .inr (.inr (.inl ⟨v, rest, hw, hv, by simp [hv], rfl⟩))
    · exact .inr (.inr (.inr (.inr ⟨by simp [hv], rfl⟩)))
  | reset rest ht => exact .inr (.inr (.inr (.inl ⟨rest, ht, rfl, rfl⟩)))
  | _ => exact .inr (.inr (.inr (.inr (by simp))))

/-- Settles O47: a completion does what its clause says, and each of the five things a step can do to DONE and BUSY
meets the other clauses. -/
theorem doneAndBusyChangeOnlyAsTheRulesSay : Obligations.DoneAndBusyChangeOnlyAsTheRulesSay := by
  intro s t h
  have hcomplete := engine_completes h
  rcases done_busy_cases h with ⟨he, hp⟩ | ⟨v, rest, hw, hsb, hc, hd⟩ | ⟨v, rest, hw, hv, hd, hb⟩ |
    ⟨rest, ht, hd, hb⟩ | ⟨hd, hb⟩
  · obtain ⟨hd, hb⟩ := hcomplete he hp
    exact ⟨fun _ _ => ⟨he, hp⟩, hcomplete, by simp [hd], by simp [hb], fun _ _ => .inl ⟨he, hp⟩⟩
  · exact ⟨by simp [hd], hcomplete, fun _ _ => .inl ⟨v, rest, hw, hsb, hc⟩, fun _ _ => ⟨v, rest, hw, hc, hd⟩,
      by simp [hsb]⟩
  · exact ⟨by simp [hd], hcomplete, fun _ _ => .inr (.inl ⟨v, rest, hw, hv⟩), by simp +contextual [hb],
      by simp +contextual [hb]⟩
  · exact ⟨by simp [hd], hcomplete, fun _ _ => .inr (.inr ⟨rest, ht⟩), by simp [hb], fun _ _ => .inr ⟨rest, ht⟩⟩
  · exact ⟨by simp +contextual [hd], hcomplete, by simp +contextual [hd], by simp +contextual [hb],
      by simp +contextual [hb]⟩

end Sys2Proof.Machine
end

section
/-! PROOFS. The host bus (20_memory.md): what a read returns and what a write does, region by region, and what the
pending command meets until the Engine performs it. -/

namespace Sys2Proof.Machine

/-! ### Reads, by the region of the word (R52, R55, R62) -/

section readsByRegion
variable {w : Widx} (s : State)

theorem busRead_of_id (h : region w = .id) : busRead w s = idWord := by simp only [busRead, h]

theorem busRead_of_status (h : region w = .status) : busRead w s = statusWord s := by simp only [busRead, h]

theorem busRead_of_valid (h : region w = .valid) :
    busRead w s = validWord (if s.busy then Config.drawEntries (busyView s) else s.rkv) s := by
  simp only [busRead, h]

theorem busRead_of_cmd (h : region w = .cmd) : busRead w s = 0 := by simp only [busRead, h]

theorem busRead_of_key {c : Fin 4} (h : region w = .key c) : busRead w s = blockWord s.key c := by
  simp only [busRead, h]

theorem busRead_of_data {c : Fin 4} (h : region w = .data c) :
    busRead w s = if s.busy then Config.drawWord (busyView s) w else blockWord s.data c := by
  simp only [busRead, h]

theorem busRead_of_rk {r : Fin 10} {c : Fin 4} (h : region w = .rk r c) :
    busRead w s = if s.busy then Config.drawWord (busyView s) w else blockWord s.rk[r] c := by
  simp only [busRead, h]

theorem busRead_of_sbox {v : Byte} (h : region w = .sbox v) : busRead w s = (sbox v).setWidth 32 := by
  simp only [busRead, h]

theorem busRead_of_rcon {i : Fin 10} (h : region w = .rcon i) : busRead w s = (rcon i).setWidth 32 := by
  simp only [busRead, h]

theorem busRead_of_reserved (h : region w = .reserved) : busRead w s = 0 := by simp only [busRead, h]

end readsByRegion

/-- A read of VALID as a number, whatever stands in its bits [17:8] (10_state.md R33). -/
theorem busRead_valid_toNat (s : State) : (busRead (widxOf 0x008) s).toNat =
    256 * (if s.busy then Config.drawEntries (busyView s) else s.rkv).toNat + 16 * s.datav.toNat + s.keyv.toNat := by
  rw [busRead_of_valid s region_valid, validWord_toNat]

/-- Settles O31: the read of each region, at the offsets of the region. -/
theorem readsFollowTheAddressMap : Obligations.ReadsFollowTheAddressMap := by
  intro s
  have hvalid := busRead_valid_toNat s
  have hdatav := s.datav.isLt
  have hkeyv := s.keyv.isLt
  refine ⟨busRead_of_id s region_id, ?_, busRead_of_cmd s region_cmd, fun c => busRead_of_key s (region_key c),
    fun v => ?_, fun i => ?_, fun w hw => busRead_of_reserved s (region_reserved hw), ?_, ?_,
    fun hb => ⟨by simpa [hb] using hvalid, fun c => ?_, fun r c => ?_⟩⟩
  · rw [busRead_of_status s region_status, statusWord_toNat]
  · rw [busRead_of_sbox s (region_sbox v)]
    exact BitVec.toNat_setWidth_of_le (by decide)
  · rw [busRead_of_rcon s (region_rcon i)]
    exact BitVec.toNat_setWidth_of_le (by decide)
  · omega
  · have hentries := (if s.busy then Config.drawEntries (busyView s) else s.rkv).isLt
    omega
  · simp [busRead_of_data s (region_data c), hb]
  · simp [busRead_of_rk s (region_rk r c), hb]

/-- Settles O32: a Block's word and its bytes as numbers, and the store of one word. -/
theorem wordsArePackedBigEndian : Obligations.WordsArePackedBigEndian :=
  ⟨blockWord_toNat, unpack_toNat, fun b c v =>
    ⟨blockWord_setBlockWord_self b c v, fun c' hne => blockWord_setBlockWord_ne b c c' v hne⟩⟩

/-- A host read, and the turn it takes, leave the hardware part of the state as it was (R66). -/
theorem sameCore_hostRead (w : Widx) (rest : List Turn) (s : State) : SameCore s (hostRead w (withTurns rest s)) :=
  ⟨rfl, rfl, rfl, rfl, rfl, rfl, rfl, rfl, rfl, rfl, rfl⟩

/-- Settles O33: the step is the host's read, which keeps the core and counts a draw where there is one. -/
theorem readsChangeNoState : Obligations.ReadsChangeNoState := by
  intro s w rest ht
  exact ⟨hostRead w (withTurns rest s), step_read ht, sameCore_hostRead w rest s, rfl, rfl,
    fun hd => if_neg (ne_true_of_eq_false hd), fun hd => if_pos hd⟩

/-! ### Free reads (R62) -/

/-- Which reads are free: those of VALID, DATA and the RK window, while BUSY = 1. In each region the definition's answer
is the one that the offsets of the region give. -/
theorem readDraws_iff (w : Widx) (s : State) : readDraws w s = true ↔ s.busy = true ∧
    (offsetOf w = 0x008 ∨ (0x020 ≤ offsetOf w ∧ offsetOf w ≤ 0x02C) ∨ (0x100 ≤ offsetOf w ∧ offsetOf w ≤ 0x19C)) := by
  unfold readDraws
  rcases region_cases w with ⟨ho, hr⟩ | ⟨ho, hr⟩ | ⟨ho, hr⟩ | ⟨ho, hr⟩ | ⟨c, ho, hr⟩ | ⟨c, ho, hr⟩ | ⟨r, c, ho, hr⟩ |
    ⟨v, ho, hr⟩ | ⟨i, ho, hr⟩ | ⟨ho, hr⟩ <;>
    simp only [hr, iff_self_and, Bool.false_eq_true, false_iff, not_and] <;> intro _ <;> omega

/-- A read of STATUS depends on its four fields only (10_state.md R29). -/
theorem statusWord_congr {s t : State} (hb : t.busy = s.busy) (hd : t.done = s.done) (he : t.err = s.err)
    (hc : t.errcode = s.errcode) : statusWord t = statusWord s := by
  simp only [statusWord, hb, hd, he, hc]

/-- A read that is not free returns what KEY and STATUS hold, or a constant. -/
theorem busRead_congr_of_not_draws {w : Widx} {s t : State} (hd : readDraws w s = false) (hb : s.busy = true)
    (hkey : t.key = s.key) (hstatus : statusWord t = statusWord s) : busRead w t = busRead w s := by
  unfold busRead
  unfold readDraws at hd
  cases hr : region w with
  | valid | data c | rk r c => simp [hr, hb] at hd
  | status => exact hstatus
  | key c => simp only [hkey]
  | id | cmd | sbox v | rcon i | reserved => rfl

/-- Settles O34: the free reads at the offsets of their regions, and all others. -/
theorem busyReadsAreFreeOnlyWhereTheRuleSays : Obligations.BusyReadsAreFreeOnlyWhereTheRuleSays := by
  intro s hb
  refine ⟨fun c => ?_, fun r c => ?_, ?_, fun w => ?_, fun w t hd htb hkey hdone herr hcode => ?_⟩
  · rw [busRead_of_data s (region_data c), if_pos hb]
  · rw [busRead_of_rk s (region_rk r c), if_pos hb]
  · rw [busRead_valid_toNat, if_pos hb]
  · rw [← Bool.not_eq_true, readDraws_iff, and_iff_right hb]
    rfl
  · exact busRead_congr_of_not_draws hd hb hkey (statusWord_congr htb hdone herr hcode)

/-! ### Writes, by the region of the word (R64) -/

section writesByRegion
variable {w : Widx} (v : Word) (s : State)

theorem busWrite_of_status (h : region w = .status) : busWrite w v s = writeStatus v s := by simp only [busWrite, h]

theorem busWrite_of_cmd (h : region w = .cmd) : busWrite w v s = issueCommand v s := by simp only [busWrite, h]

theorem busWrite_of_key {c : Fin 4} (h : region w = .key c) : busWrite w v s = writeKey c v s := by
  simp only [busWrite, h]

theorem busWrite_of_data {c : Fin 4} (h : region w = .data c) : busWrite w v s = writeData c v s := by
  simp only [busWrite, h]

end writesByRegion

section writesByBusy
variable (c : Fin 4) (v : Word) {s : State}

theorem writeKey_of_busy (hb : s.busy = true) : writeKey c v s = reject .busy s := if_pos hb

theorem writeKey_of_idle (hb : s.busy = false) : writeKey c v s = storeKey c v s := if_neg (ne_true_of_eq_false hb)

theorem writeData_of_busy (hb : s.busy = true) : writeData c v s = reject .busy s := if_pos hb

theorem writeData_of_idle (hb : s.busy = false) : writeData c v s = storeData c v s :=
  if_neg (ne_true_of_eq_false hb)

theorem issueCommand_of_busy (hb : s.busy = true) : issueCommand v s = reject .busy s := if_pos hb

end writesByBusy

/-- Bit k of a word, on the word as a number. -/
theorem getElem_iff_div_mod (v : Word) (k : Nat) (hk : k < 32) : v[k] = true ↔ v.toNat / 2 ^ k % 2 = 1 := by
  rw [BitVec.getElem_eq_testBit_toNat, Nat.testBit_eq_decide_div_mod_eq, decide_eq_true_iff]

/-- Settles O35: the step is the write to STATUS, with its bits 1 and 2 read off the word as a number. -/
theorem statusWriteClearsWhatItNames : Obligations.StatusWriteClearsWhatItNames := by
  intro s v rest hw
  rw [step_write hw, busWrite_of_status v _ region_status, writeStatus]
  simp only [getElem_iff_div_mod, withTurns]
  rfl

/-- Marking a word sets its bit of the mask and no other (10_state.md R22, R24). -/
theorem markWord_bits (m : BitVec 4) (c : Fin 4) :
    (markWord m c)[c.val] = true ∧ ∀ c' : Fin 4, c' ≠ c → (markWord m c)[c'.val] = m[c'.val] :=
  ⟨by simp [getElem_markWord], fun c' hne => by simp [getElem_markWord, hne]⟩

/-- Settles O36: the step is the write to KEYc, which is rejected or stored. -/
theorem keyWriteStoresAndInvalidatesTheSchedule : Obligations.KeyWriteStoresAndInvalidatesTheSchedule := by
  intro s c v rest hw
  rw [step_write hw, busWrite_of_key v _ (region_key c)]
  obtain ⟨hset, hother⟩ := markWord_bits s.keyv c
  refine ⟨fun hb => ?_, fun hb => ⟨setBlockWord s.key c v, markWord s.keyv c, ?_, blockWord_setBlockWord_self _ c v,
    fun c' => blockWord_setBlockWord_ne _ c c' v, hset, hother⟩⟩
  · rw [writeKey_of_busy (s := withTurns rest s) c v hb]
    rfl
  · rw [writeKey_of_idle (s := withTurns rest s) c v hb]
    rfl

/-- Settles O37: the step is the write to DATAc, which is rejected or stored. -/
theorem dataWriteStoresOneWord : Obligations.DataWriteStoresOneWord := by
  intro s c v rest hw
  rw [step_write hw, busWrite_of_data v _ (region_data c)]
  obtain ⟨hset, hother⟩ := markWord_bits s.datav c
  refine ⟨fun hb => ?_, fun hb => ⟨setBlockWord s.data c v, markWord s.datav c, ?_, blockWord_setBlockWord_self _ c v,
    fun c' => blockWord_setBlockWord_ne _ c c' v, hset, hother⟩⟩
  · rw [writeData_of_busy (s := withTurns rest s) c v hb]
    rfl
  · rw [writeData_of_idle (s := withTurns rest s) c v hb]
    rfl

/-- Settles O38: the write of the step is rejected, by its offset. -/
theorem writesToReadOnlyOrReservedAreRejected : Obligations.WritesToReadOnlyOrReservedAreRejected := by
  intro s w v rest ht hstatus hcmd hregs
  rw [step_write ht, busWrite_addr v _ hstatus hcmd hregs]
  rfl

/-! ### The same write twice (R68) -/

theorem writeStatus_idem (v : Word) (s : State) : writeStatus v (writeStatus v s) = writeStatus v s := by
  unfold writeStatus
  cases v[1] <;> cases v[2] <;> rfl

theorem storeKey_idem (c : Fin 4) (v : Word) (s : State) : storeKey c v (storeKey c v s) = storeKey c v s := by
  simp only [storeKey, setBlockWord_idem, markWord_idem]

theorem storeData_idem (c : Fin 4) (v : Word) (s : State) : storeData c v (storeData c v s) = storeData c v s := by
  simp only [storeData, setBlockWord_idem, markWord_idem]

theorem writeKey_idem (c : Fin 4) (v : Word) (s : State) : writeKey c v (writeKey c v s) = writeKey c v s := by
  cases hb : s.busy
  · rw [writeKey_of_idle c v hb, writeKey_of_idle c v ((storeKey_busy s c v).trans hb), storeKey_idem]
  · rw [writeKey_of_busy c v hb, writeKey_of_busy c v ((reject_busy s .busy).trans hb)]
    rfl

theorem writeData_idem (c : Fin 4) (v : Word) (s : State) : writeData c v (writeData c v s) = writeData c v s := by
  cases hb : s.busy
  · rw [writeData_of_idle c v hb, writeData_of_idle c v ((storeData_busy s c v).trans hb), storeData_idem]
  · rw [writeData_of_busy c v hb, writeData_of_busy c v ((reject_busy s .busy).trans hb)]
    rfl

/-- Settles O40: each operation that a write outside CMD can be is idempotent. -/
theorem registerWritesAreIdempotent : Obligations.RegisterWritesAreIdempotent := by
  intro s w v hcmd
  by_cases hstatus : offsetOf w = 0x004
  · have hr : region w = .status := by rw [widx_of_offset hstatus, region_status]
    rw [busWrite_of_status v _ hr, busWrite_of_status v _ hr, writeStatus_idem]
  by_cases hregs : 0x010 ≤ offsetOf w ∧ offsetOf w ≤ 0x02C
  · rcases busWrite_key_or_data v s hregs with ⟨c, hr, -, -⟩ | ⟨c, hr, -, -⟩
    · rw [busWrite_of_key v _ hr, busWrite_of_key v _ hr, writeKey_idem]
    · rw [busWrite_of_data v _ hr, busWrite_of_data v _ hr, writeData_idem]
  · rw [busWrite_addr v _ hstatus hcmd hregs, busWrite_addr v _ hstatus hcmd hregs]
    rfl

/-! ### A read after a write (R55, R58, R59) -/

/-- While BUSY = 0 a read of any word but VALID returns what KEY, DATA, RK and STATUS hold, or a constant. -/
theorem busRead_congr_of_idle {w : Widx} {s t : State} (hs : s.busy = false) (ht : t.busy = false)
    (hvalid : region w ≠ .valid) (hstatus : statusWord t = statusWord s)
    (hkey : ∀ c, region w = .key c → blockWord t.key c = blockWord s.key c)
    (hdata : ∀ c, region w = .data c → blockWord t.data c = blockWord s.data c) (hrk : t.rk = s.rk) :
    busRead w t = busRead w s := by
  unfold busRead
  cases hr : region w with
  | valid => exact absurd hr hvalid
  | status => exact hstatus
  | key c => exact hkey c hr
  | data c => simpa [hs, ht] using hdata c hr
  | rk r c => simp [hs, ht, hrk]
  | id | cmd | sbox b | rcon i | reserved => rfl

theorem offset_of_valid {w : Widx} (h : region w = .valid) : offsetOf w = 0x008 := by
  rcases region_cases w with h' | h' | h' | h' | ⟨c, h'⟩ | ⟨c, h'⟩ | ⟨r, c, h'⟩ | ⟨v, h'⟩ | ⟨i, h'⟩ | h' <;>
    simp_all

theorem statusWord_storeKey (c : Fin 4) (v : Word) (s : State) : statusWord (storeKey c v s) = statusWord s :=
  statusWord_congr (storeKey_busy ..) (storeKey_done ..) (storeKey_err ..) (storeKey_errcode ..)

theorem statusWord_storeData (c : Fin 4) (v : Word) (s : State) : statusWord (storeData c v s) = statusWord s :=
  statusWord_congr (storeData_busy ..) (storeData_done ..) (storeData_err ..) (storeData_errcode ..)

/-- Two words that differ stand in different KEY words, or in different DATA words. -/
theorem index_ne_of_widx_ne {w w' : Widx} {c c' : Fin 4} (hne : w' ≠ w)
    (h : region w = .key c ∧ region w' = .key c' ∨ region w = .data c ∧ region w' = .data c') : c' ≠ c := by
  rintro rfl
  rcases h with ⟨h, h'⟩ | ⟨h, h'⟩
  · exact hne ((widx_of_key h').trans (widx_of_key h).symm)
  · exact hne ((widx_of_data h').trans (widx_of_data h).symm)

/-- Settles O41: the write is a store to KEYc or to DATAc; its own word reads as stored, the others as before. -/
theorem readAfterWriteReturnsTheWord : Obligations.ReadAfterWriteReturnsTheWord := by
  intro s w v hb hlo hhi
  rcases busWrite_key_or_data v s ⟨hlo, hhi⟩ with ⟨c, hr, -, hw⟩ | ⟨c, hr, -, hw⟩ <;> rw [hw]
  · rw [writeKey_of_idle c v hb]
    refine ⟨?_, fun w' hne h8 => busRead_congr_of_idle hb ((storeKey_busy s c v).trans hb)
      (mt offset_of_valid h8) (statusWord_storeKey c v s)
      (fun c' hr' => ?_) (fun _ _ => by rw [storeKey_data]) (storeKey_rk s c v)⟩
    · rw [busRead_of_key _ hr, storeKey_key, blockWord_setBlockWord_self]
    · exact blockWord_setBlockWord_ne s.key c c' v (index_ne_of_widx_ne hne (.inl ⟨hr, hr'⟩))
  · rw [writeData_of_idle c v hb]
    refine ⟨?_, fun w' hne h8 => busRead_congr_of_idle hb ((storeData_busy s c v).trans hb)
      (mt offset_of_valid h8) (statusWord_storeData c v s)
      (fun _ _ => by rw [storeData_key]) (fun c' hr' => ?_) (storeData_rk s c v)⟩
    · simp [busRead_of_data _ hr, hb, blockWord_setBlockWord_self]
    · exact blockWord_setBlockWord_ne s.data c c' v (index_ne_of_widx_ne hne (.inr ⟨hr, hr'⟩))

/-! ### Until the Engine performs what is pending (R63, R71) -/

/-- The command pending in `s` is pending in `t`, and all that it reads is as it was. -/
structure KeepsInputs (s t : State) : Prop where
  pend : t.pend = s.pend
  key : t.key = s.key
  keyv : t.keyv = s.keyv
  data : t.data = s.data
  datav : t.datav = s.datav
  rk : t.rk = s.rk
  rkv : t.rkv = s.rkv
  busy : t.busy = s.busy

/-- While BUSY = 1, of all effects but reset and the Engine's, none touches what the pending command reads. -/
theorem step_keepsInputs {s t : State} (h : step s = .next t) (hb : s.busy = true) (he : ¬ EngineNext s)
    (hnr : ¬ ∃ rest, s.turns = .reset :: rest) : KeepsInputs s t := by
  cases step_effect h with
  | read | rejected | statusWritten => exact ⟨rfl, rfl, rfl, rfl, rfl, rfl, rfl, rfl⟩
  | accepted v rest hw hidle | keyWritten c v rest hw hidle | dataWritten c v rest hw hidle => simp [hb] at hidle
  | reset rest ht => exact absurd ⟨rest, ht⟩ hnr
  | idle he' | schedule _ _ he' | entry _ _ _ he' | block _ _ he' => exact absurd he' he

/-- A write to CMD, KEYc or DATAc while BUSY = 1 is rejected with code BUSY (R63). -/
theorem busWrite_of_busy {w : Widx} (v : Word) {s : State} (hb : s.busy = true)
    (hw : offsetOf w = 0x00C ∨ (0x010 ≤ offsetOf w ∧ offsetOf w ≤ 0x02C)) : busWrite w v s = reject .busy s := by
  rcases hw with hcmd | hregs
  · have hr : region w = .cmd := by rw [widx_of_offset hcmd, region_cmd]
    rw [busWrite_of_cmd v s hr, issueCommand_of_busy v hb]
  · rcases busWrite_key_or_data v s hregs with ⟨c, -, -, hw⟩ | ⟨c, -, -, hw⟩
    · rw [hw, writeKey_of_busy c v hb]
    · rw [hw, writeData_of_busy c v hb]

/-- Settles O39: the rejection of the write, and what any step but the Engine's and a reset keeps. -/
theorem nothingAPendingCommandReadsCanChange : Obligations.NothingAPendingCommandReadsCanChange := by
  refine ⟨fun s w v rest hb ht hw => ?_, fun s t hb h he hnr => ?_⟩
  · rw [step_write ht, busWrite_of_busy (s := withTurns rest s) v hb hw]
    rfl
  · have hk := step_keepsInputs h hb he hnr
    exact ⟨hk.pend, hk.key, hk.keyv, hk.data, hk.datav, hk.rk, hk.rkv, hk.busy⟩

/-- Every step takes the turn that is next, and no other (20_memory.md R70). -/
theorem step_turns {s t : State} (h : step s = .next t) : t.turns = s.turns.tail := by
  cases step_effect h with
  | read w rest ht | rejected w v rest e ht | reset rest ht => rw [ht]; rfl
  | statusWritten v rest hw | accepted v rest hw | keyWritten c v rest hw | dataWritten c v rest hw =>
    rw [show s.turns = _ from hw]; rfl
  | idle | schedule | entry | block => rfl

/-- The run from `s` comes to `u` in `m` steps, and its next step is the performing of `p`, which names `i`, on what `p`
reads in `s`; it leads to `u'`. -/
structure PerformedAt (p : Pending) (s : State) (m : Nat) (u u' : State) (i : Instr) : Prop where
  before : core.run m s = .next u
  inputs : KeepsInputs s u
  command : decodeFields p.op p.arg = .ok i
  after : core.run (m + 1) s = .next u'
  performed : exec i (withTurns u.turns.tail u) = .next u'

theorem KeepsInputs.refl (s : State) : KeepsInputs s s := ⟨rfl, rfl, rfl, rfl, rfl, rfl, rfl, rfl⟩

theorem KeepsInputs.trans {s t u : State} (h : KeepsInputs s t) (h' : KeepsInputs t u) : KeepsInputs s u :=
  ⟨h'.pend.trans h.pend, h'.key.trans h.key, h'.keyv.trans h.keyv, h'.data.trans h.data, h'.datav.trans h.datav,
    h'.rk.trans h.rk, h'.rkv.trans h.rkv, h'.busy.trans h.busy⟩

/-- The Engine's turn performs what is pending. -/
theorem performedAt_zero {s t : State} {p : Pending} (h : step s = .next t) (he : EngineNext s)
    (hp : s.pend = some p) : ∃ i, PerformedAt p s 0 s t i := by
  rw [step_engine he] at h
  cases hi : decodeFields p.op p.arg with
  | error e => simp [engineStep, hp, hi] at h
  | ok i =>
    have hrun : core.run 1 s = .next t := run_succ 0 ((step_engine he).trans h)
    rw [engineStep_some (s := withTurns s.turns.tail s) hp hi] at h
    exact ⟨i, rfl, .refl s, hi, hrun, h⟩

/-- A step that keeps the command pending, before the run that performs it, makes that run one step longer. -/
theorem PerformedAt.succ {p : Pending} {s s₁ u u' : State} {m : Nat} {i : Instr} (h : step s = .next s₁)
    (hk : KeepsInputs s s₁) (hm : PerformedAt p s₁ m u u' i) : PerformedAt p s (m + 1) u u' i :=
  ⟨(run_succ m h).trans hm.before, hk.trans hm.inputs, hm.command, (run_succ (m + 1) h).trans hm.after, hm.performed⟩

/-- By induction on the run: the first step is the Engine's performing of the command, or the command is still pending
after it, with the same inputs. -/
theorem performed_of_idle (p : Pending) (t : State) (hidle : t.busy = false) (n : Nat) : ∀ s : State, s.Inv →
    s.pend = some p → Turn.reset ∉ s.turns.take n → core.run n s = .next t →
    ∃ m u u' i, m < n ∧ PerformedAt p s m u u' i := by
  induction n with
  | zero =>
    intro s h hp _ hrun
    obtain rfl : s = t := Host.Outcome.next.inj hrun
    have hb := h.busy_of_pending (by simp [hp])
    simp [hidle] at hb
  | succ n ih =>
    intro s h hp hreset hrun
    obtain ⟨s₁, hstep, hrun⟩ := run_succ_next hrun
    by_cases he : EngineNext s
    · obtain ⟨i, hi⟩ := performedAt_zero hstep he hp
      exact ⟨0, s, s₁, i, n.succ_pos, hi⟩
    · have hnr : ¬ ∃ rest, s.turns = .reset :: rest := by
        rintro ⟨rest, ht⟩
        simp [ht] at hreset
      have hk := step_keepsInputs hstep (h.busy_of_pending (by simp [hp])) he hnr
      have hreset₁ : Turn.reset ∉ s₁.turns.take n := by
        intro hmem
        rw [step_turns hstep, show n = n + 1 - 1 from rfl, ← List.tail_take_eq_take_tail] at hmem
        exact hreset (List.mem_of_mem_tail hmem)
      obtain ⟨m, u, u', i, hm, hi⟩ := ih s₁ (h.step hstep) (hk.pend.trans hp) hreset₁ hrun
      exact ⟨m + 1, u, u', i, Nat.succ_lt_succ hm, hi.succ hstep hk⟩

/-- Settles O54: the step at which the run performs the command, with the inputs it has kept. -/
theorem completionIsVisibleOnceBusyIsClear : Obligations.CompletionIsVisibleOnceBusyIsClear := by
  intro s t p n h hp hreset hrun hidle
  obtain ⟨m, u, u', i, hm, hi⟩ := performed_of_idle p t hidle n s h hp hreset hrun
  have hk := hi.inputs
  exact ⟨m, u, u', i, hm, hi.before, hk.pend.trans hp, hk.key, hk.keyv, hk.data, hk.datav, hk.rk, hk.rkv, hi.command,
    hi.after, hi.performed⟩

end Sys2Proof.Machine
end

section
/-! PROOFS. Command words (30_encoding.md R80 to R83, R89): the decoder and the encoder undo each other, and the legal
words are those of the 36 well-formed commands. -/

namespace Sys2Proof.Machine

/-! ### Decoding undoes encoding (R80 to R83) -/

/-- The OP and the operand of a well-formed command name it. -/
theorem decodeFields_of_wf {i : Instr} (h : i.wf = true) : decodeFields i.opcode i.operand = .ok i := by
  cases i with
  | expandKey | encrypt | subBytes | shiftRows | mixColumns => rfl
  | keyRound n | addRoundKey n | round n => exact if_pos h

theorem decode_encode {i : Instr} (h : i.wf = true) : decode (encode i) = .ok i := by
  rw [decode, encode, rsvOf_commandWord, opOf_commandWord, argOf_commandWord, decodeFields_of_wf h]
  exact if_neg (not_not.mpr rfl)

/-- Settles O1: the fields of the word are the command's own, and they name it. -/
theorem decodeOfEncodedCommandIsTheCommand : Obligations.DecodeOfEncodedCommandIsTheCommand :=
  fun _ h => decode_encode h

/-- The words that decode to a command: its own word, if it is well formed. -/
theorem decode_eq_ok_iff {v : Word} {i : Instr} : decode v = .ok i ↔ i.wf = true ∧ encode i = v := by
  constructor
  · intro h
    obtain ⟨hwf, hop, harg⟩ := decode_ok_fields h
    exact ⟨hwf, by rw [encode, ← hop, ← harg, ← eq_commandWord v (decode_ok h).1]⟩
  · rintro ⟨hwf, rfl⟩
    exact decode_encode hwf

/-! ### The illegal words (R83) -/

theorem decodePlain_error {arg : Arg} {i : Instr} {e : DecodeError} (h : decodePlain arg i = .error e) :
    arg.toNat ≠ 0 := by
  intro h0
  rw [decodePlain, if_pos (BitVec.eq_of_toNat_eq h0)] at h
  cases h

theorem decodeRanged_error {i : Instr} {e : DecodeError} (h : decodeRanged i = .error e) : i.wf = false := by
  unfold decodeRanged at h
  split_ifs at h with hwf
  exact Bool.eq_false_of_not_eq_true hwf

/-- A word whose fields name no command is on the rule's list. -/
theorem illegalWord_of_fields {v : Word} {e : DecodeError} (h : decodeFields (opOf v) (argOf v) = .error e) :
    IllegalWord v := by
  unfold decodeFields at h
  rw [opOf_toNat] at h
  unfold IllegalWord
  split at h
  case h_3 | h_4 | h_8 =>
    have hwf := decodeRanged_error h
    simp only [Instr.wf, argOf_toNat, decide_eq_false_iff_not] at hwf
    omega
  case h_9 =>
    simp only [imp_false] at *
    omega
  all_goals
    have harg := decodePlain_error h
    rw [argOf_toNat] at harg
    omega

theorem illegalWord_of_error {v : Word} {e : DecodeError} (h : decode v = .error e) : IllegalWord v := by
  unfold decode at h
  split_ifs at h with hrsv
  · exact .inl (mt (rsvOf_eq_zero v).mpr hrsv)
  · exact illegalWord_of_fields h

theorem encode_toNat (i : Instr) : (encode i).toNat = 256 * i.operand.toNat + i.opcode.toNat :=
  commandWord_toNat i.opcode i.operand

/-- OP and ARG of a command's word, on the word as a number. -/
theorem encode_toNat_fields (i : Instr) : (encode i).toNat % 256 = i.opcode.toNat ∧
    (encode i).toNat / 256 % 16 = i.operand.toNat ∧ (encode i).toNat / 4096 = 0 := by
  have := i.opcode.isLt
  have := i.operand.isLt
  rw [encode_toNat]
  omega

theorem not_illegalWord_encode {i : Instr} (h : i.wf = true) : ¬ IllegalWord (encode i) := by
  obtain ⟨hop, harg, hrsv⟩ := encode_toNat_fields i
  simp only [IllegalWord, hop, harg, hrsv]
  cases i <;> simp [Instr.wf, Instr.opcode, Instr.operand] at h ⊢ <;> omega

/-- A word is illegal by the rule's list exactly if it decodes to no command. -/
theorem illegalWord_iff (v : Word) : IllegalWord v ↔ ∃ e, decode v = .error e := by
  refine ⟨fun h => ?_, fun ⟨_, he⟩ => illegalWord_of_error he⟩
  cases hd : decode v with
  | error e => exact ⟨e, rfl⟩
  | ok i =>
    obtain ⟨hwf, rfl⟩ := decode_eq_ok_iff.mp hd
    exact absurd h (not_illegalWord_encode hwf)

/-- A word that is not illegal decodes to a command. -/
theorem exists_decode_of_legal {v : Word} (h : ¬ IllegalWord v) : ∃ i, decode v = .ok i := by
  cases hd : decode v with
  | error e => exact absurd (illegalWord_of_error hd) h
  | ok i => exact ⟨i, rfl⟩

/-! ### The legal words (R89) -/

/-- The well-formed commands, each once, in the order of R89. -/
def legalCommands : List Instr :=
  .expandKey :: .encrypt :: ((List.range 10).map (fun r => Instr.keyRound (BitVec.ofNat 4 r)) ++
    ((List.range 11).map (fun k => Instr.addRoundKey (BitVec.ofNat 4 k)) ++
      .subBytes :: .shiftRows :: .mixColumns :: (List.range 10).map fun j => Instr.round (BitVec.ofNat 4 (j + 1))))

theorem mem_legalCommands (i : Instr) : i ∈ legalCommands ↔ i.wf = true := by
  cases i with
  | expandKey | encrypt | subBytes | shiftRows | mixColumns => decide
  | keyRound n | addRoundKey n | round n => revert n; decide

/-- A word that stands in the list is the word of its OP and operand, as R89 writes it. -/
theorem encode_eq_ofNat (i : Instr) : encode i = BitVec.ofNat 32 (i.opcode.toNat + 0x100 * i.operand.toNat) := by
  apply BitVec.eq_of_toNat_eq
  have := i.opcode.isLt
  have := i.operand.isLt
  rw [encode_toNat, BitVec.toNat_ofNat]
  omega

theorem mem_map_encode_iff (v : Word) : v ∈ legalCommands.map encode ↔ ∃ i, decode v = .ok i := by
  simp only [List.mem_map, mem_legalCommands, decode_eq_ok_iff]

/-- No operand in range is cut by the 4 bits of ARG (R82). -/
theorem toNat_ofNat_arg {n : Nat} (h : n ≤ 10) : (BitVec.ofNat 4 n).toNat = n := by
  rw [BitVec.toNat_ofNat]
  omega

theorem exists_decode_iff_listed (v : Word) : (∃ i, decode v = .ok i) ↔
    v = 0x00000001#32 ∨ v = 0x00000002#32 ∨ (∃ r, r ≤ 9 ∧ v = BitVec.ofNat 32 (0x003 + 0x100 * r)) ∨
    (∃ k, k ≤ 10 ∧ v = BitVec.ofNat 32 (0x004 + 0x100 * k)) ∨ v = 0x00000005#32 ∨ v = 0x00000006#32 ∨
    v = 0x00000007#32 ∨ (∃ j, 1 ≤ j ∧ j ≤ 10 ∧ v = BitVec.ofNat 32 (0x008 + 0x100 * j)) := by
  simp only [decode_eq_ok_iff, encode_eq_ofNat]
  constructor
  · rintro ⟨i, hwf, rfl⟩
    cases i with
    | expandKey => exact .inl rfl
    | encrypt => exact .inr (.inl rfl)
    | keyRound r => exact .inr (.inr (.inl ⟨r.toNat, of_decide_eq_true hwf, rfl⟩))
    | addRoundKey k => exact .inr (.inr (.inr (.inl ⟨k.toNat, of_decide_eq_true hwf, rfl⟩)))
    | subBytes => exact .inr (.inr (.inr (.inr (.inl rfl))))
    | shiftRows => exact .inr (.inr (.inr (.inr (.inr (.inl rfl)))))
    | mixColumns => exact .inr (.inr (.inr (.inr (.inr (.inr (.inl rfl))))))
    | round j =>
      obtain ⟨h1, h10⟩ := of_decide_eq_true hwf
      exact .inr (.inr (.inr (.inr (.inr (.inr (.inr ⟨j.toNat, h1, h10, rfl⟩))))))
  · rintro (rfl | rfl | ⟨r, hr, rfl⟩ | ⟨k, hk, rfl⟩ | rfl | rfl | rfl | ⟨j, h1, h10, rfl⟩)
    · exact ⟨.expandKey, rfl, rfl⟩
    · exact ⟨.encrypt, rfl, rfl⟩
    · have hn := toNat_ofNat_arg (show r ≤ 10 by omega)
      exact ⟨.keyRound (BitVec.ofNat 4 r), by simp [Instr.wf, hn, hr], by simp [Instr.opcode, Instr.operand, hn]⟩
    · have hn := toNat_ofNat_arg hk
      exact ⟨.addRoundKey (BitVec.ofNat 4 k), by simp [Instr.wf, hn, hk], by simp [Instr.opcode, Instr.operand, hn]⟩
    · exact ⟨.subBytes, rfl, rfl⟩
    · exact ⟨.shiftRows, rfl, rfl⟩
    · exact ⟨.mixColumns, rfl, rfl⟩
    · have hn := toNat_ofNat_arg h10
      exact ⟨.round (BitVec.ofNat 4 j), by simp [Instr.wf, hn, h1, h10], by simp [Instr.opcode, Instr.operand, hn]⟩

/-- Settles O3: the words of the well-formed commands, which are 36. -/
theorem legalWordsAreTheThirtySixListed : Obligations.LegalWordsAreTheThirtySixListed :=
  ⟨legalCommands.map encode, rfl, by decide +kernel, mem_map_encode_iff,
    fun v => (mem_map_encode_iff v).trans (exists_decode_iff_listed v)⟩

/-- Settles O4: each word, decoded. -/
theorem writtenOutWordsDecode : Obligations.WrittenOutWordsDecode := by
  unfold Obligations.WrittenOutWordsDecode
  decide

/-! ### The rows of the opcode table (R81) -/

/-- The row of a command depends on its OP only: all eight fix the OP and RSV, and those of a command without an operand
fix ARG. -/
theorem row_eq (i : Instr) : i.row = ⟨i.opcode.setWidth 32,
    if i.opcode = 3 ∨ i.opcode = 4 ∨ i.opcode = 8 then 0xFFFFF0FF else 0xFFFFFFFF⟩ := by
  cases i <;> rfl

/-- A word that has the fixed bits of a command's row has its OP: every mask fixes the OP. -/
theorem opOf_of_row {v : Word} {i : Instr} (h : v &&& i.row.mask = i.row.pattern) : opOf v = i.opcode := by
  have hmask : opOf i.row.mask = BitVec.allOnes 8 := by
    rw [row_eq]
    dsimp only
    split <;> rfl
  have hpattern : opOf i.row.pattern = i.opcode := by cases i <;> rfl
  calc opOf v = opOf v &&& opOf i.row.mask := by rw [hmask, BitVec.and_allOnes]
    _ = opOf (v &&& i.row.mask) := BitVec.extractLsb'_and.symm
    _ = i.opcode := by rw [h, hpattern]

theorem encode_and_mask {i : Instr} (h : i.wf = true) : encode i &&& i.row.mask = i.row.pattern := by
  cases i with
  | expandKey => exact Laws.EncodesTableRow.expandKey h
  | encrypt => exact Laws.EncodesTableRow.encrypt h
  | keyRound r => exact Laws.EncodesTableRow.keyRound r h
  | addRoundKey k => exact Laws.EncodesTableRow.addRoundKey k h
  | subBytes => exact Laws.EncodesTableRow.subBytes h
  | shiftRows => exact Laws.EncodesTableRow.shiftRows h
  | mixColumns => exact Laws.EncodesTableRow.mixColumns h
  | round j => exact Laws.EncodesTableRow.round j h

/-- Settles O5: a legal word is its command's, and the OP of a word, which every row fixes, tells its row. -/
theorem tableRowsFitAndDoNotOverlap : Obligations.TableRowsFitAndDoNotOverlap := by
  refine ⟨fun v i h => ?_, fun v i i' h h' => ?_⟩
  · obtain ⟨hwf, rfl⟩ := decode_eq_ok_iff.mp h
    exact encode_and_mask hwf
  · rw [row_eq, row_eq, (opOf_of_row h).symm.trans (opOf_of_row h')]

end Sys2Proof.Machine
end

section
/-! PROOFS. The life of a command (30_encoding.md R84 to R88): its check, its issue by the write to CMD, and its Engine
step. -/

namespace Sys2Proof.Machine

/-! ### What each command needs (R84), by the OP and ARG of its word -/

theorem needsKey_iff (i : Instr) : needsKey i = true ↔ i.opcode.toNat = 1 ∨ i.opcode.toNat = 2 ∨ i.opcode.toNat = 3 ∨
    (i.opcode.toNat = 4 ∧ i.operand.toNat = 0) := by
  cases i with
  | addRoundKey k => simp [needsKey, Instr.opcode, Instr.operand, ← BitVec.toNat_inj]
  | _ => simp [needsKey, Instr.opcode]

theorem needsData_iff (i : Instr) : needsData i = true ↔ i.opcode.toNat = 2 ∨ i.opcode.toNat = 4 ∨
    i.opcode.toNat = 5 ∨ i.opcode.toNat = 6 ∨ i.opcode.toNat = 7 ∨ i.opcode.toNat = 8 := by
  cases i <;> simp [needsData, Instr.opcode]

theorem mem_entryBefore (n : Arg) (r : Nat) : r ∈ entryBefore n ↔ 1 ≤ n.toNat ∧ r = n.toNat - 1 := by
  by_cases h : n = 0
  · simp [entryBefore, h]
  · have : n.toNat ≠ 0 := fun h0 => h (BitVec.eq_of_toNat_eq h0)
    rw [entryBefore, if_neg h, List.mem_singleton, and_iff_right (Nat.one_le_iff_ne_zero.mpr this)]

theorem mem_needsEntries (i : Instr) (r : Nat) : r ∈ needsEntries i ↔ (i.opcode.toNat = 2 ∧ r ≤ 9) ∨
    ((i.opcode.toNat = 3 ∨ i.opcode.toNat = 4 ∨ i.opcode.toNat = 8) ∧ 1 ≤ i.operand.toNat ∧
      r = i.operand.toNat - 1) := by
  cases i with
  | encrypt => simp [needsEntries, Instr.opcode, Nat.lt_succ_iff]
  | keyRound n | addRoundKey n | round n => simp [needsEntries, Instr.opcode, Instr.operand, mem_entryBefore]
  | _ => simp [needsEntries, Instr.opcode]

/-- A well-formed command needs entries of the schedule only. -/
theorem lt_of_mem_needsEntries {i : Instr} (h : i.wf = true) {r : Nat} (hr : r ∈ needsEntries i) : r < 10 := by
  rw [mem_needsEntries] at hr
  cases i <;> simp [Instr.wf, Instr.opcode, Instr.operand] at h hr <;> omega

/-! ### The check, in the order of its tests (R85) -/

theorem checkState_eq (i : Instr) (s : State) : checkState i s =
    if needsKey i = true ∧ s.keyv ≠ 0b1111 then some .keyLength
    else if needsData i = true ∧ s.datav ≠ 0b1111 then some .dataLength
    else if ∃ r ∈ needsEntries i, s.rkv.getLsbD r = false then some .schedule
    else none := by
  simp [checkState, allWritten]

/-- The entry that the last test misses is one of the schedule. -/
theorem missing_entry_iff {i : Instr} (h : i.wf = true) (s : State) :
    (∃ r ∈ needsEntries i, s.rkv.getLsbD r = false) ↔ ∃ r : Fin 10, r.val ∈ needsEntries i ∧ s.rkv[r.val] = false := by
  constructor
  · rintro ⟨r, hr, hbit⟩
    have hlt := lt_of_mem_needsEntries h hr
    exact ⟨⟨r, hlt⟩, hr, by rwa [BitVec.getLsbD_eq_getElem hlt] at hbit⟩
  · rintro ⟨r, hr, hbit⟩
    exact ⟨r.val, hr, by rwa [BitVec.getLsbD_eq_getElem r.isLt]⟩

theorem check_of_illegal {v : Word} (h : IllegalWord v) (s : State) : check v s = some .illegal := by
  obtain ⟨e, he⟩ := (illegalWord_iff v).mp h
  simp only [check, he]

/-- Settles O6: an illegal word fails the first test; a legal one is a command's, whose needs are read off OP and ARG,
and the tests of its preconditions follow in the rule's order. -/
theorem checkFollowsTheOrderOfTheRule : Obligations.CheckFollowsTheOrderOfTheRule := by
  intro v s op arg needK needD needR
  refine ⟨fun h => check_of_illegal (.inl h) s,
    fun _ => ⟨fun h => ?_, fun h => ?_, fun h => ?_, fun h => ?_, fun h => ?_⟩, fun hlegal => ?_⟩
  · exact check_of_illegal (.inr (h.elim .inl fun h => .inr (.inl h))) s
  · exact check_of_illegal (.inr (.inr (.inr (.inl h)))) s
  · exact check_of_illegal (.inr (.inr (.inr (.inr (.inl h))))) s
  · exact check_of_illegal (.inr (.inr (.inr (.inr (.inr (.inl h)))))) s
  · exact check_of_illegal (.inr (.inr (.inr (.inr (.inr (.inr h)))))) s
  · obtain ⟨i, hd⟩ := exists_decode_of_legal hlegal
    obtain ⟨hwf, rfl⟩ := decode_eq_ok_iff.mp hd
    obtain ⟨hop, harg, -⟩ := encode_toNat_fields i
    have hK : needK ↔ needsKey i = true := by rw [needsKey_iff, ← hop, ← harg]
    have hD : needD ↔ needsData i = true := by rw [needsData_iff, ← hop]
    have hR : (∃ r : Fin 10, needR r.val ∧ s.rkv[r.val] = false) ↔ ∃ r ∈ needsEntries i, s.rkv.getLsbD r = false := by
      rw [missing_entry_iff hwf]
      simp only [mem_needsEntries, ← hop, ← harg]
      rfl
    rw [check_of_decode hd, checkState_eq, hK, hD, hR]
    refine ⟨fun hk => if_pos hk, fun hk => ?_⟩
    rw [if_neg hk]
    refine ⟨fun hd => if_pos hd, fun hd => ?_⟩
    rw [if_neg hd]
    exact ⟨fun hr => if_pos hr, fun hr => if_neg hr⟩

/-! ### The issue of a command (R86) -/

/-- OP and ARG of a word, by a cut and a shift. -/
theorem opOf_eq_setWidth (v : Word) : opOf v = v.setWidth 8 := by
  apply BitVec.eq_of_toNat_eq
  simp

theorem argOf_eq_setWidth (v : Word) : argOf v = (v >>> 8).setWidth 4 := by
  apply BitVec.eq_of_toNat_eq
  simp [Nat.shiftRight_eq_div_pow]

section issue
variable {v : Word} {s : State} (hb : s.busy = false)
include hb

theorem issueCommand_of_failed {e : ErrCode} (h : check v s = some e) : issueCommand v s = reject e s := by
  simp [issueCommand, hb, h]

theorem issueCommand_of_passed (h : check v s = none) : issueCommand v s = accept ⟨opOf v, argOf v⟩ s := by
  simp [issueCommand, hb, h]

end issue

theorem step_cmdWrite {s : State} {v : Word} {rest : List Turn} (hw : NextWrites s 0x00C v rest) :
    step s = .next (issueCommand v (withTurns rest s)) := by
  rw [step_write hw, busWrite_of_cmd _ _ region_cmd]

/-- The check at the write is that of the state before the turn was taken. -/
theorem check_withTurns (v : Word) (rest : List Turn) (s : State) : check v (withTurns rest s) = check v s :=
  check_congr v rfl rfl rfl

/-- A word that fails its check, written to CMD while BUSY = 0, is rejected with the code of the check. -/
theorem step_cmdWrite_failed {s : State} {v : Word} {rest : List Turn} {e : ErrCode} (hw : NextWrites s 0x00C v rest)
    (hb : s.busy = false) (he : check v s = some e) : step s = .next (reject e (withTurns rest s)) := by
  rw [step_cmdWrite hw, issueCommand_of_failed (s := withTurns rest s) hb ((check_withTurns v rest s).trans he)]

/-- Settles O7: the write is the issue of the command, which is rejected or accepted. -/
theorem cmdWriteIssuesOrRejects : Obligations.CmdWriteIssuesOrRejects := by
  intro s v rest hw
  refine ⟨fun hb => ?_, fun hb e he => step_cmdWrite_failed hw hb he, fun hb hc => ?_⟩
  · rw [step_cmdWrite hw, issueCommand_of_busy (s := withTurns rest s) v hb]
    rfl
  · rw [step_cmdWrite hw, issueCommand_of_passed (s := withTurns rest s) hb ((check_withTurns v rest s).trans hc),
      opOf_eq_setWidth, argOf_eq_setWidth]
    rfl

/-- Settles O2: what decodes is the word of its command, what does not is on the rule's list, and a write of that to CMD
is rejected with ILLEGAL. -/
theorem everyWordIsOneCommandOrIllegal : Obligations.EveryWordIsOneCommandOrIllegal := by
  intro v
  refine ⟨illegalWord_iff v, fun h => ?_, fun h s rest hw hb => ?_⟩
  · obtain ⟨i, hd⟩ := exists_decode_of_legal h
    obtain ⟨hwf, henc⟩ := decode_eq_ok_iff.mp hd
    exact ⟨i, hwf, henc, hd, fun i' hwf' henc' => Except.ok.inj ((decode_eq_ok_iff.mpr ⟨hwf', henc'⟩).symm.trans hd)⟩
  · exact step_cmdWrite_failed hw hb (check_of_illegal h s)

/-! ### The Engine step (R87, R88) -/

/-- A command with its operand out of range, which no word encodes, stops with the model's fault (log 8). -/
theorem exec_of_not_wf {i : Instr} (h : i.wf = false) (s : State) : exec i s = .fault .notACommand := by
  cases i with
  | expandKey | encrypt | subBytes | shiftRows | mixColumns => cases h
  | keyRound r =>
    have hr : ¬ r.toNat ≤ 9 := of_decide_eq_false h
    exact dif_neg (by omega)
  | addRoundKey k =>
    have hk : ¬ k.toNat ≤ 10 := of_decide_eq_false h
    exact dif_neg (by omega)
  | round j =>
    have hj : ¬ (1 ≤ j.toNat ∧ j.toNat ≤ 10) := of_decide_eq_false h
    exact dif_neg (by omega)

/-- Settles O22: both kinds of commands, those of a word and those of none. -/
theorem wellFormedCommandsAlwaysComplete : Obligations.WellFormedCommandsAlwaysComplete :=
  fun _ s => ⟨fun h => exec_completes h s, fun h => exec_of_not_wf h s⟩

/-- The performing of a command writes all that its acceptance wrote, and reads none of it. -/
theorem exec_accept (i : Instr) (p : Pending) (s : State) : exec i (accept p s) = exec i s := by
  cases i <;> rfl

/-- Settles O28: the Engine's step is exec of the command that PEND names, or nothing. -/
theorem stepPerformsThePendingCommand : Obligations.StepPerformsThePendingCommand := by
  refine ⟨fun s p i he hp hi => ?_, fun s he hp => ?_⟩
  · have hstep : step s = exec i (withTurns s.turns.tail s) := by
      rw [step_engine he, engineStep_some (s := withTurns s.turns.tail s) hp hi]
    exact ⟨hstep, hstep ▸ exec_completes (decodeFields_ok hi).1 _⟩
  · exact (step_engine he).trans (engineStep_none hp)

theorem decodeTableWord_eq_some {nbits w : Nat} {i : Instr} (h : decodeTableWord nbits w = some i) :
    decode (BitVec.ofNat 32 (w % 2 ^ nbits)) = .ok i := by
  unfold decodeTableWord at h
  split_ifs at h
  cases hd : decode (BitVec.ofNat 32 (w % 2 ^ nbits)) with
  | error e => simp [hd, Except.toOption] at h
  | ok j => simpa [hd, Except.toOption] using h

/-- A command that is placed is accepted, with the next turn given to the Engine (log 7). -/
theorem placeCommand_of_decode {v : Word} {i : Instr} (h : decode v = .ok i) (s : State) :
    placeCommand v s = accept ⟨i.opcode, i.operand⟩ (withTurns (.engine :: s.turns) s) := by
  obtain ⟨-, hop, harg⟩ := decode_ok_fields h
  simp only [placeCommand, h, hop, harg]

/-- An Engine turn with a well-formed command accepted performs it. -/
theorem step_accepted {i : Instr} (h : i.wf = true) (rest : List Turn) (s : State) :
    step (accept ⟨i.opcode, i.operand⟩ (withTurns (.engine :: rest) s)) =
      exec i (accept ⟨i.opcode, i.operand⟩ (withTurns rest s)) := by
  rw [step_engine (engineNext_cons (rest := rest) rfl)]
  exact engineStep_some rfl (decodeFields_of_wf h)

/-- Settles O29: the placed command is pending, and the Engine has the turn. -/
theorem placedWordIsPerformedByTheNextStep : Obligations.PlacedWordIsPerformedByTheNextStep := by
  intro s w i h
  have hd := decodeTableWord_eq_some h
  rw [State.withFetchWord, placeCommand_of_decode hd, step_accepted (decode_ok_fields hd).1]
  rfl

/-- A write to CMD of the word of a command that passes its check, while BUSY = 0, is the acceptance of the command. -/
theorem busWrite_encode {i : Instr} {s : State} (h : i.wf = true) (hb : s.busy = false) (hc : checkState i s = none) :
    busWrite cmdWidx (encode i) s = accept ⟨i.opcode, i.operand⟩ s := by
  have hd := decode_encode h
  obtain ⟨-, hop, harg⟩ := decode_ok_fields hd
  rw [busWrite_of_cmd _ _ region_cmdWidx, issueCommand_of_passed hb ((check_of_decode hd s).trans hc), hop, harg]

/-- Settles O30: the write accepts the command, and the Engine's turn after it performs it. -/
theorem issuedCommandIsPerformed : Obligations.IssuedCommandIsPerformed := by
  intro s i rest h hb hc ht
  obtain ⟨t, he, -⟩ := exec_completes h (withTurns rest s)
  have hwrite : step s = .next (accept ⟨i.opcode, i.operand⟩ (withTurns (.engine :: rest) s)) := by
    rw [step_write (rest := .engine :: rest) ht,
      busWrite_encode (s := withTurns (.engine :: rest) s) h hb ((checkState_congr i rfl rfl rfl).trans hc)]
  have hengine : step (accept ⟨i.opcode, i.operand⟩ (withTurns (.engine :: rest) s)) = .next t := by
    rw [step_accepted h, exec_accept, he]
  exact ⟨t, t, (run_succ 1 hwrite).trans (run_succ 0 hengine), he, rfl⟩

/-- Settles O58: whichever turn is next, and the invariant says that what is pending names a command. -/
theorem noStepStopsUnderTheInvariant : Obligations.NoStepStopsUnderTheInvariant :=
  fun _ h => h.step_goes_on

end Sys2Proof.Machine
end

section
/-! PROOFS. A host that calls expand_key and then encrypt_block beside a core (30_encoding.md R90 to R92). The core
passes four stages: EXPAND_KEY issued, the schedule derived, ENCRYPT issued, the ciphertext ready. Rules for one act of
the host at a time, whatever the Engine does in between, lead from stage to stage. -/

namespace Sys2Proof.Machine

/-! ### Runs of the agents -/

theorem agentSteps_host (as : List Agent) (r : HostRun) : agentSteps (.host :: as) r = agentSteps as (hostStep r) := rfl

theorem agentSteps_engine (as : List Agent) {r : HostRun} {d : State} (h : engineStep r.core = .next d) :
    agentSteps (.engine :: as) r = agentSteps as { r with core := d } := by
  simp only [agentSteps, agentStep, h]

/-- Every run from `r` that has no reset and ends the host's program ends it in `post`. -/
def EndsIn (post : HostRun → Prop) (r : HostRun) : Prop :=
  ∀ (as : List Agent) (r' : HostRun), Agent.reset ∉ as → agentSteps as r = .next r' → r'.todo = [] → post r'

section rules
variable {post : HostRun → Prop} {rest : List HostAct} {kept : List (String × Word)}

/-- With nothing pending the Engine does nothing, so the next thing to happen is the host's next act. -/
theorem EndsIn.host {r : HostRun} (hp : r.core.pend = none) (ht : r.todo ≠ []) (h : EndsIn post (hostStep r)) :
    EndsIn post r := by
  intro as
  induction as with
  | nil =>
    intro r' _ hrun hend
    obtain rfl : r = r' := Host.Outcome.next.inj hrun
    exact absurd hend ht
  | cons a as ih =>
    intro r' hnr hrun hend
    have hnr' := List.not_mem_of_not_mem_cons hnr
    cases a with
    | host => exact h as r' hnr' hrun hend
    | engine => exact ih r' hnr' ((agentSteps_engine as (engineStep_none hp)).symm.trans hrun) hend
    | reset => simp at hnr

/-- With the program over and nothing pending, nothing happens any more. -/
theorem EndsIn.over {c : State} (hp : c.pend = none) (h : post ⟨c, [], kept⟩) : EndsIn post ⟨c, [], kept⟩ := by
  intro as
  induction as with
  | nil =>
    intro r' _ hrun _
    obtain rfl : _ = r' := Host.Outcome.next.inj hrun
    exact h
  | cons a as ih =>
    intro r' hnr hrun hend
    have hnr' := List.not_mem_of_not_mem_cons hnr
    cases a with
    | host => exact ih r' hnr' hrun hend
    | engine => exact ih r' hnr' ((agentSteps_engine as (r := ⟨c, [], kept⟩) (engineStep_none hp)).symm.trans hrun) hend
    | reset => simp at hnr

/-! ### A WAIT (R91) -/

/-- What a WAIT waits for: in every state of `A` a command is pending, and performing it leads to `B`, where nothing is
pending. The reads of STATUS that the WAIT makes lead out of neither. -/
structure Awaits (A B : State → Prop) : Prop where
  busy : ∀ c, A c → c.busy = true
  performs : ∀ c, A c → ∃ d, engineStep c = .next d ∧ B d
  polled : ∀ c, A c → A (hostRead statusWidx c)
  idle : ∀ d, B d → d.busy = false ∧ d.pend = none
  read : ∀ d, B d → B (hostRead statusWidx d)

variable {A B : State → Prop} {c : State}

/-- However often the WAIT reads BUSY = 1, it goes on only after the command has been performed. -/
theorem EndsIn.wait (hw : Awaits A B) (hc : A c) (h : ∀ d, B d → EndsIn post ⟨d, rest, kept⟩) :
    EndsIn post ⟨c, .poll :: rest, kept⟩ := by
  intro as
  induction as generalizing c with
  | nil =>
    intro r' _ hrun hend
    obtain rfl : _ = r' := Host.Outcome.next.inj hrun
    cases hend
  | cons a as ih =>
    intro r' hnr hrun hend
    have hnr' := List.not_mem_of_not_mem_cons hnr
    cases a with
    | host =>
      rw [agentSteps_host, hostStep_poll_busy c rest kept (hw.busy c hc)] at hrun
      exact ih (hw.polled c hc) r' hnr' hrun hend
    | engine =>
      obtain ⟨d, hd, hB⟩ := hw.performs c hc
      obtain ⟨hb, hp⟩ := hw.idle d hB
      rw [agentSteps_engine as (r := ⟨c, .poll :: rest, kept⟩) hd] at hrun
      have hd : EndsIn post ⟨d, .poll :: rest, kept⟩ := by
        refine .host hp (List.cons_ne_nil _ _) ?_
        rw [hostStep_poll_idle d rest kept hb]
        exact h _ (hw.read d hB)
      exact hd as r' hnr' hrun hend
    | reset => simp at hnr

/-- A WAIT that reads BUSY = 1 any number of times, then BUSY = 0 after the Engine's step, is over (R91). -/
theorem agentSteps_wait (hw : Awaits A B) (hc : A c) (n : Nat) : ∃ d, B d ∧ ∀ as,
    agentSteps (List.replicate n .host ++ .engine :: .host :: as) ⟨c, .poll :: rest, kept⟩ =
      agentSteps as ⟨d, rest, kept⟩ := by
  induction n generalizing c with
  | zero =>
    obtain ⟨d, hd, hB⟩ := hw.performs c hc
    refine ⟨_, hw.read d hB, fun as => ?_⟩
    rw [List.replicate_zero, List.nil_append, agentSteps_engine _ (r := ⟨c, .poll :: rest, kept⟩) hd, agentSteps_host,
      hostStep_poll_idle d rest kept (hw.idle d hB).1]
  | succ n ih =>
    obtain ⟨d, hB, hrun⟩ := ih (hw.polled c hc)
    refine ⟨d, hB, fun as => ?_⟩
    rw [List.replicate_succ, List.cons_append, agentSteps_host, hostStep_poll_busy c rest kept (hw.busy c hc), hrun]

/-! ### The writes of a LOADKEY or a LOADDATA (R91) -/

/-- The words of a Block, in the order in which LOADKEY and LOADDATA write them. -/
def blockWords : List (Fin 4) := [0, 1, 2, 3]

/-- The writes of the words `cs` of a Block to the registers from offset `off`. -/
def storeActs (off : Nat) (b : Block) (cs : List (Fin 4)) : List HostAct :=
  cs.map fun c => .write (widxOf (off + 4 * c.val)) (blockWord b c)

/-- The words `cs` of a Block stored by `store`, one after another. -/
def storeWords (store : Fin 4 → Word → State → State) (b : Block) (cs : List (Fin 4)) (s : State) : State :=
  cs.foldl (fun t c => store c (blockWord b c) t) s

/-- While BUSY = 0 a write to a word of the register at offset `off` is `store`, which leaves BUSY and PEND. -/
structure StoresAt (off : Nat) (store : Fin 4 → Word → State → State) : Prop where
  write : ∀ (c : Fin 4) (v : Word) (s : State), s.busy = false →
    busWrite (widxOf (off + 4 * c.val)) v s = store c v s
  busy : ∀ (c : Fin 4) (v : Word) (s : State), (store c v s).busy = s.busy
  pend : ∀ (c : Fin 4) (v : Word) (s : State), (store c v s).pend = s.pend

theorem storesAt_key : StoresAt 0x010 storeKey where
  write c v s hb := by rw [busWrite_of_key v s (region_key c), writeKey_of_idle c v hb]
  busy c v s := storeKey_busy s c v
  pend c v s := storeKey_pend s c v

theorem storesAt_data : StoresAt 0x020 storeData where
  write c v s hb := by rw [busWrite_of_data v s (region_data c), writeData_of_idle c v hb]
  busy c v s := storeData_busy s c v
  pend c v s := storeData_pend s c v

variable {off : Nat} {store : Fin 4 → Word → State → State} {s : State}

theorem EndsIn.stores (hs : StoresAt off store) (b : Block) (cs : List (Fin 4)) (hb : s.busy = false)
    (hp : s.pend = none) (h : EndsIn post ⟨storeWords store b cs s, rest, kept⟩) :
    EndsIn post ⟨s, storeActs off b cs ++ rest, kept⟩ := by
  induction cs generalizing s with
  | nil => exact h
  | cons c cs ih =>
    refine .host hp (List.cons_ne_nil _ _) ?_
    rw [storeActs, List.map_cons, List.cons_append, hostStep_write, hs.write c _ s hb]
    exact ih ((hs.busy c _ s).trans hb) ((hs.pend c _ s).trans hp) h

theorem agentSteps_stores (hs : StoresAt off store) (b : Block) (cs : List (Fin 4)) (hb : s.busy = false)
    (as : List Agent) : agentSteps (List.replicate cs.length .host ++ as) ⟨s, storeActs off b cs ++ rest, kept⟩ =
      agentSteps as ⟨storeWords store b cs s, rest, kept⟩ := by
  induction cs generalizing s with
  | nil => rfl
  | cons c cs ih =>
    rw [List.length_cons, List.replicate_succ, List.cons_append, agentSteps_host, storeActs, List.map_cons,
      List.cons_append, hostStep_write, hs.write c _ s hb]
    exact ih ((hs.busy c _ s).trans hb)

end rules

/-! ### A Block stored whole -/

theorem getElem_unpack_blockWord (b : Block) (c : Fin 4) (j : Nat) (hj : j < 4) :
    (unpack (blockWord b c))[j] = b[4 * c.val + j] := by
  have h0 := b[4 * c.val].isLt
  have h1 := b[4 * c.val + 1].isLt
  have h2 := b[4 * c.val + 2].isLt
  have h3 := b[4 * c.val + 3].isLt
  apply BitVec.eq_of_toNat_eq
  match j, hj with
  | 0, _ | 1, _ | 2, _ | 3, _ =>
    simp [unpack, BitVec.extractLsb'_toNat, Nat.shiftRight_eq_div_pow, blockWord_toNat]
    omega

/-- A Block whose four words are all stored is the Block they are the words of (20_memory.md R53). -/
theorem setBlockWord_all (a b : Block) : setBlockWord (setBlockWord (setBlockWord (setBlockWord a 0 (blockWord b 0)) 1
    (blockWord b 1)) 2 (blockWord b 2)) 3 (blockWord b 3) = b := by
  apply Vector.ext
  intro i hi
  simp only [getElem_setBlockWord, getElem_unpack_blockWord]
  split_ifs with h3 h2 h1 h0
  case neg => omega
  all_goals
    congr 1
    omega

theorem markWord_all (m : BitVec 4) : markWord (markWord (markWord (markWord m 0) 1) 2) 3 = 0b1111 := by
  revert m
  decide

/-- LOADKEY leaves its Block in KEY, whole, and no entry of the schedule valid (20_memory.md R58). -/
theorem storeWords_key (b : Block) (s : State) :
    storeWords storeKey b blockWords s = { s with key := b, keyv := 0b1111, rkv := 0 } := by
  simp only [storeWords, blockWords, List.foldl_cons, List.foldl_nil, storeKey, setBlockWord_all, markWord_all]

/-- LOADDATA leaves its Block in DATA, whole (20_memory.md R59). -/
theorem storeWords_data (b : Block) (s : State) :
    storeWords storeData b blockWords s = { s with data := b, datav := 0b1111 } := by
  simp only [storeWords, blockWords, List.foldl_cons, List.foldl_nil, storeData, setBlockWord_all, markWord_all]

/-! ### The four stages -/

section stages
variable (s : State) (K P : Block)

/-- Nothing has been rejected since `s`, and the turns to come are those of `s`. -/
structure NothingRejected (c : State) : Prop where
  err : c.err = s.err
  errcode : c.errcode = s.errcode
  turns : c.turns = s.turns

/-- EXPAND_KEY is pending, with K in KEY. -/
structure ExpandIssued (c : State) : Prop extends NothingRejected s c where
  key : c.key = K
  keyv : c.keyv = 0b1111
  pend : c.pend = some ⟨0x01, 0⟩
  busy : c.busy = true

/-- K is in KEY, with its schedule, and nothing is pending. -/
structure ScheduleDerived (c : State) : Prop extends NothingRejected s c where
  key : c.key = K
  keyv : c.keyv = 0b1111
  rk : c.rk = expandKey K
  rkv : c.rkv = 0x3FF
  pend : c.pend = none
  busy : c.busy = false

/-- ENCRYPT is pending, with P in DATA. -/
structure EncryptIssued (c : State) : Prop extends NothingRejected s c where
  key : c.key = K
  rk : c.rk = expandKey K
  rkv : c.rkv = 0x3FF
  data : c.data = P
  pend : c.pend = some ⟨0x02, 0⟩
  busy : c.busy = true

/-- The ciphertext of P is in DATA, and nothing is pending. -/
structure CiphertextReady (c : State) : Prop extends NothingRejected s c where
  key : c.key = K
  rk : c.rk = expandKey K
  rkv : c.rkv = 0x3FF
  data : c.data = encryptBlock K (expandKey K) P
  pend : c.pend = none
  busy : c.busy = false
  done : c.done = true

end stages

section stageReads
variable {s c : State} {K P : Block} (w : Widx)

theorem ExpandIssued.hostRead (h : ExpandIssued s K c) : ExpandIssued s K (hostRead w c) :=
  ⟨⟨h.err, h.errcode, h.turns⟩, h.key, h.keyv, h.pend, h.busy⟩

theorem ScheduleDerived.hostRead (h : ScheduleDerived s K c) : ScheduleDerived s K (hostRead w c) :=
  ⟨⟨h.err, h.errcode, h.turns⟩, h.key, h.keyv, h.rk, h.rkv, h.pend, h.busy⟩

theorem EncryptIssued.hostRead (h : EncryptIssued s K P c) : EncryptIssued s K P (hostRead w c) :=
  ⟨⟨h.err, h.errcode, h.turns⟩, h.key, h.rk, h.rkv, h.data, h.pend, h.busy⟩

theorem CiphertextReady.hostRead (h : CiphertextReady s K P c) : CiphertextReady s K P (hostRead w c) :=
  ⟨⟨h.err, h.errcode, h.turns⟩, h.key, h.rk, h.rkv, h.data, h.pend, h.busy, h.done⟩

end stageReads

section stageSteps
variable {s c : State} {K P : Block}

/-- LOADKEY and the write of EXPAND_KEY, from an idle core: the command needs the key only (R84), which is whole. -/
theorem expandIssued (K : Block) (hb : s.busy = false) :
    ExpandIssued s K (busWrite cmdWidx (encode .expandKey) (storeWords storeKey K blockWords s)) := by
  have hcheck : checkState .expandKey { s with key := K, keyv := 0b1111, rkv := 0 } = none := by
    simp [checkState_eq, needsData, needsEntries]
  rw [storeWords_key, busWrite_encode rfl (by exact hb) hcheck]
  exact ⟨⟨rfl, rfl, rfl⟩, rfl, rfl, rfl, rfl⟩

theorem ExpandIssued.performed (h : ExpandIssued s K c) : ∃ d, engineStep c = .next d ∧ ScheduleDerived s K d := by
  refine ⟨_, (engineStep_some h.pend rfl).trans (exec_expandKey c), ⟨h.err, h.errcode, h.turns⟩, h.key, h.keyv, ?_, rfl,
    rfl, rfl⟩
  rw [finish_rk, setSchedule_rk, h.key]

/-- LOADDATA and the write of ENCRYPT: key, block and schedule, all that the command needs (R84), are whole. -/
theorem ScheduleDerived.encryptIssued (P : Block) (h : ScheduleDerived s K c) :
    EncryptIssued s K P (busWrite cmdWidx (encode .encrypt) (storeWords storeData P blockWords c)) := by
  have hentries : ∀ r ∈ needsEntries .encrypt, (0x3FF#10).getLsbD r = true := by decide
  have hcheck : checkState .encrypt { c with data := P, datav := 0b1111 } = none := by
    simpa [checkState_eq, h.keyv, h.rkv] using hentries
  rw [storeWords_data, busWrite_encode rfl (by exact h.busy) hcheck]
  exact ⟨⟨h.err, h.errcode, h.turns⟩, h.key, h.rk, h.rkv, rfl, rfl, rfl⟩

theorem EncryptIssued.performed (h : EncryptIssued s K P c) :
    ∃ d, engineStep c = .next d ∧ CiphertextReady s K P d := by
  refine ⟨_, (engineStep_some h.pend rfl).trans (exec_encrypt c), ⟨h.err, h.errcode, h.turns⟩, h.key, h.rk, h.rkv, ?_,
    rfl, rfl, rfl⟩
  rw [finish_data, setData_data, h.key, h.rk, h.data]

theorem awaits_schedule (s : State) (K : Block) : Awaits (ExpandIssued s K) (ScheduleDerived s K) where
  busy _ h := h.busy
  performs _ h := h.performed
  polled _ h := h.hostRead _
  idle _ h := ⟨h.busy, h.pend⟩
  read _ h := h.hostRead _

theorem awaits_ciphertext (s : State) (K P : Block) : Awaits (EncryptIssued s K P) (CiphertextReady s K P) where
  busy _ h := h.busy
  performs _ h := h.performed
  polled _ h := h.hostRead _
  idle _ h := ⟨h.busy, h.pend⟩
  read _ h := h.hostRead _

end stageSteps

/-! ### The reads of a READDATA (R91) -/

/-- The reads of DATA words, each to be kept under its name. -/
def readActs (ns : List (String × Fin 4)) : List HostAct :=
  ns.map fun n => .read (widxOf (0x020 + 4 * n.2.val)) (some n.1)

/-- The words of a Block under their names. -/
def namedWords (b : Block) (ns : List (String × Fin 4)) : List (String × Word) :=
  ns.map fun n => (n.1, blockWord b n.2)

/-- The names of a READDATA of all four words, as in R92. -/
def blockNames : List (String × Fin 4) := [("d0", 0), ("d1", 1), ("d2", 2), ("d3", 3)]

/-- What the host's program ends in: the ciphertext in DATA, and its words kept. -/
structure Returned (s : State) (K P : Block) (r : HostRun) : Prop where
  core : CiphertextReady s K P r.core
  kept : r.kept = namedWords r.core.data blockNames

/-- With the ciphertext ready, READDATA keeps its words. -/
theorem CiphertextReady.endsIn_reads {s c : State} {K P : Block} {post : HostRun → Prop} (ns : List (String × Fin 4))
    (kept : List (String × Word)) (hc : CiphertextReady s K P c)
    (h : ∀ d, CiphertextReady s K P d → post ⟨d, [], kept ++ namedWords d.data ns⟩) :
    EndsIn post ⟨c, readActs ns, kept⟩ := by
  induction ns generalizing c kept with
  | nil =>
    have hpost := h c hc
    rw [namedWords, List.map_nil, List.append_nil] at hpost
    exact .over hc.pend hpost
  | cons n ns ih =>
    refine .host hc.pend (List.cons_ne_nil _ _) ?_
    rw [readActs, List.map_cons, hostStep_read_named]
    refine ih _ (hc.hostRead _) fun d hd => ?_
    have hword : busRead (widxOf (0x020 + 4 * n.2.val)) c = blockWord d.data n.2 := by
      rw [busRead_of_data c (region_data n.2), hc.busy, hc.data, hd.data]
      rfl
    rw [hword, List.append_assoc]
    exact h d hd

/-! ### The two calls together (R92) -/

/-- What is left of the program once EXPAND_KEY is issued. -/
def afterExpand (P : Block) : List HostAct :=
  .poll :: (storeActs 0x020 P blockWords ++ .write cmdWidx (encode .encrypt) :: .poll :: readActs blockNames)

theorem startHost_calls (s : State) (K P : Block) : startHost (expandKeyCall K ++ encryptBlockCall P) s =
    ⟨s, storeActs 0x010 K blockWords ++ .write cmdWidx (encode .expandKey) :: afterExpand P, []⟩ := rfl

section calls
variable {s c : State} {K : Block} (P : Block)

/-- From the issue of EXPAND_KEY on, every run that ends the program returns the ciphertext. -/
theorem ExpandIssued.endsIn_returned (h : ExpandIssued s K c) : EndsIn (Returned s K P) ⟨c, afterExpand P, []⟩ := by
  refine .wait (awaits_schedule s K) h fun d hd => ?_
  refine .stores storesAt_data P _ hd.busy hd.pend 
    (.host (storeWords_data P d ▸ hd.pend) (List.cons_ne_nil _ _) ?_)
  refine .wait (awaits_ciphertext s K P) (hd.encryptIssued P) fun e he => ?_
  exact he.endsIn_reads blockNames [] fun u hu => ⟨hu, rfl⟩

/-- From the issue of EXPAND_KEY on, the program comes to its end, however often its WAITs read BUSY = 1. -/
theorem ExpandIssued.comes_to_end (h : ExpandIssued s K c) (polls polls' : Nat) : ∃ r : HostRun, r.todo = [] ∧
    agentSteps (List.replicate polls .host ++ .engine :: (List.replicate (6 + polls') .host ++
      .engine :: List.replicate 5 .host)) ⟨c, afterExpand P, []⟩ = .next r := by
  obtain ⟨d, hd, hrun⟩ := agentSteps_wait (rest := storeActs 0x020 P blockWords ++
    .write cmdWidx (encode .encrypt) :: .poll :: readActs blockNames) (kept := []) (awaits_schedule s K) h polls
  obtain ⟨e, -, hrun'⟩ := agentSteps_wait (rest := readActs blockNames) (kept := []) (awaits_ciphertext s K P)
    (hd.encryptIssued P) polls'
  refine ⟨hostStep (hostStep (hostStep (hostStep ⟨e, readActs blockNames, []⟩))), rfl, ?_⟩
  rw [List.replicate_add]
  exact (hrun _).trans ((agentSteps_stores storesAt_data P blockWords hd.busy _).trans (hrun' _))

end calls

/-- Settles O27: LOADKEY and the issue of EXPAND_KEY lead to the first stage; from there every run that ends the program
returns the ciphertext, and those of the first clause end it. -/
theorem expandKeyAndEncryptBlockReturnTheCiphertext : Obligations.ExpandKeyAndEncryptBlockReturnTheCiphertext := by
  intro s K P hb post
  have hissued := expandIssued K hb
  have hends := hissued.endsIn_returned P
  have hpost : ∀ r : HostRun, r.todo = [] → Returned s K P r → post r := fun r htodo ⟨h, hkept⟩ =>
    ⟨htodo, h.key, h.rk, h.rkv, h.data, h.done, h.busy, h.err, h.errcode, h.turns, hkept⟩
  rw [startHost_calls]
  refine ⟨fun polls polls' => ?_, fun as r hp hnr hrun htodo => hpost r htodo ?_⟩
  · obtain ⟨r, htodo, hrun⟩ := hissued.comes_to_end P polls polls'
    refine ⟨r, ?_, hpost r htodo (hends _ r (by simp [List.mem_replicate]) hrun htodo)⟩
    rw [List.replicate_add]
    exact (agentSteps_stores storesAt_key K blockWords hb _).trans hrun
  · exact EndsIn.stores storesAt_key K _ hb hp 
      (.host (storeWords_key K s ▸ hp) (List.cons_ne_nil _ _) hends) as r hnr hrun htodo

end Sys2Proof.Machine
end

section
/-! PROOFS. Doubling in arithmetic form, and the properties of the two ROMs (40_tables.md R102 to R108). -/

namespace Sys2Proof.Machine

/-! ### Doubling (R102) -/

section doubling
variable (a : Byte)

/-- The bit that R102 tests, in arithmetic form. -/
theorem highBit_eq : a[7] = decide (0x80 ≤ a.toNat) :=
  (BitVec.msb_eq_getLsbD_last a).symm.trans (BitVec.msb_eq_decide a)

variable {a}

theorem xtime_of_lt (h : a.toNat < 0x80) : xtime a = a <<< 1 := by
  rw [xtime, highBit_eq, decide_eq_false (by omega)]
  exact BitVec.xor_zero

theorem xtime_of_ge (h : 0x80 ≤ a.toNat) : xtime a = (a <<< 1) ^^^ 0x1B := by
  rw [xtime, highBit_eq, decide_eq_true h, if_pos rfl]

end doubling

/-- Settles O8: by the high bit, which the shift drops, so that the shifted byte is `2a` or `2a - 0x100`. -/
theorem doublingShiftsAndReduces : Obligations.DoublingShiftsAndReduces := by
  intro a
  have hbyte : a.toNat < 0x100 := a.isLt
  refine ⟨fun hlow => ?_, fun hhigh => ?_⟩
  · rw [xtime_of_lt hlow, BitVec.toNat_shiftLeft, Nat.shiftLeft_eq]
    omega
  · have hshift : a <<< 1 = BitVec.ofNat 8 (2 * a.toNat - 0x100) := by
      apply BitVec.eq_of_toNat_eq
      rw [BitVec.toNat_shiftLeft, BitVec.toNat_ofNat, Nat.shiftLeft_eq]
      omega
    rw [xtime_of_ge hhigh, hshift]

/-! ### The S-box (R104, R108) -/

/-- The affine map that ends the S-box's construction, undone (R105). -/
def undoAffine (b : Byte) : Byte := b.rotateLeft 1 ^^^ b.rotateLeft 3 ^^^ b.rotateLeft 6 ^^^ 0x05

/-- Without its affine map the S-box is the inversion of the field (R105), and to invert twice is to do nothing. -/
theorem undoAffine_sbox_involutive : Function.Involutive (undoAffine ∘ sbox) := by
  unfold Function.Involutive
  decide +kernel

theorem sbox_injective : Function.Injective sbox := undoAffine_sbox_involutive.injective.of_comp

/-- A map of the 256 bytes to themselves that merges no two of them reaches each of them. -/
theorem sbox_surjective : Function.Surjective sbox := Finite.surjective_of_injective sbox_injective

theorem sbox_ne_self_or_complement : ∀ a : Byte, sbox a ≠ a ∧ sbox a ≠ a ^^^ 0xFF := by decide +kernel

/-! ### Rcon (R106, R108) -/

theorem rcon_zero : rcon 0 = 0x01 := rfl

theorem rcon_succ : ∀ r : Fin 9, rcon r.succ = xtime (rcon r.castSucc) := by decide

theorem rcon_ne_zero : ∀ r : Fin 10, rcon r ≠ 0 := by decide

theorem rcon_injective : Function.Injective rcon := by
  unfold Function.Injective
  decide

/-- Settles O9: SBOX is injective as part of an involution, hence a permutation of the finitely many bytes; the rest is
checked entry by entry. -/
theorem romTablesHaveTheirProperties : Obligations.RomTablesHaveTheirProperties :=
  ⟨fun _ _ h => sbox_injective h, sbox_surjective, sbox_ne_self_or_complement, rcon_ne_zero,
    fun _ _ h => rcon_injective h, rcon_zero, rcon_succ⟩

end Sys2Proof.Machine
end

section
/-! PROOFS. The key schedule (41_key_schedule.md R120 to R128): the bytes of KeyRound, what EXPAND_KEY and KEY_ROUND do
to RK and RKV, and that ten KEY_ROUNDs, issued one after another, do what one EXPAND_KEY does. -/

namespace Sys2Proof.Machine

/-! ### The bytes of a word (R120 to R123) -/

section words
variable (a b w4 w5 w6 w7 : Quad) (r : Fin 10) (i : Fin 4)

theorem getElem_xorQuad : (xorQuad a b)[i.val] = a[i.val] ^^^ b[i.val] := by
  simp [xorQuad]

/-- The bytes of `g`: those of the word, rotated and substituted, with Rcon in the first (R123). -/
theorem getElem_gWord : (gWord a r)[i.val] = sbox a[(i.val + 1) % 4] ^^^ (if i.val = 0 then rcon r else 0) := by
  fin_cases i <;> simp [gWord, subWord, rotWord]

theorem getElem_quadOf (x : Block) (j : Nat) (hj : j < 4) : (quadOf x i)[j] = x[4 * i.val + j] := by
  obtain rfl | rfl | rfl | rfl : j = 0 ∨ j = 1 ∨ j = 2 ∨ j = 3 := by omega
  all_goals rfl

/-- The bytes of a Block of four words are those of its words, in order (R120). -/
theorem getElem_blockOfQuads :
    (blockOfQuads w4 w5 w6 w7)[i.val] = w4[i.val] ∧ (blockOfQuads w4 w5 w6 w7)[4 + i.val] = w5[i.val] ∧
    (blockOfQuads w4 w5 w6 w7)[8 + i.val] = w6[i.val] ∧ (blockOfQuads w4 w5 w6 w7)[12 + i.val] = w7[i.val] := by
  fin_cases i <;> exact ⟨rfl, rfl, rfl, rfl⟩

end words

/-- Settles O10: KeyRound is the Block of its four chained words; the chain of ExpandKey is its recursion. -/
theorem keyRoundChainsItsWords : Obligations.KeyRoundChainsItsWords := by
  refine ⟨fun prev r i => ?_, fun K => ⟨expandKey_zero K, fun r => expandKey_succ K r.val _⟩⟩
  simp only [keyRound, getElem_blockOfQuads, getElem_xorQuad, getElem_gWord, getElem_quadOf]
  exact ⟨by simp, rfl, rfl, rfl⟩

/-! ### The two commands (R125 to R127) -/

section entryMask
variable (m : BitVec 10)

theorem getElem_markEntry_self (r : Fin 10) : (markEntry m r)[r.val] = true := by simp [getElem_markEntry]

theorem getElem_markEntry_ne {r q : Fin 10} (h : q.val ≠ r.val) : (markEntry m r)[q.val] = m[q.val] := by
  simp [getElem_markEntry, Fin.ext_iff, h]

end entryMask

section commands
variable (s : State)

theorem finish_setSchedule_keeps (S : Schedule) : KeepsAllButSchedule s (finish (setSchedule S s)) :=
  ⟨rfl, rfl, rfl, rfl, rfl, rfl, rfl, rfl, rfl, rfl⟩

theorem finish_setEntry_keeps (r : Fin 10) (b : Block) : KeepsAllButSchedule s (finish (setEntry r b s)) :=
  ⟨rfl, rfl, rfl, rfl, rfl, rfl, rfl, rfl, rfl, rfl⟩

/-- Settles O14: the schedule written is ExpandKey's, entry by entry. -/
theorem expandKeyDerivesTheWholeSchedule : Obligations.ExpandKeyDerivesTheWholeSchedule :=
  fun s => ⟨_, exec_expandKey s, expandKey_zero s.key, fun r => expandKey_succ s.key r.val _, rfl,
    finish_finished _, finish_setSchedule_keeps s _⟩

end commands

/-- Settles O15: the entry written is KeyRound's of round key number r, and a write to it leaves the others. -/
theorem keyRoundDerivesOneEntry : Obligations.KeyRoundDerivesOneEntry := by
  intro s r hr
  refine ⟨_, exec_keyRound s r hr, ?_, fun hpos => ?_, getElem_markEntry_self _ ⟨r.toNat, hr⟩,
    fun q hq => ⟨Vector.getElem_set_ne hr q.isLt hq.symm, getElem_markEntry_ne _ hq⟩, finish_finished _,
    finish_setEntry_keeps s _ _⟩
  · rintro rfl
    exact Vector.getElem_set_self _
  · rw [← roundKey_pos s r.toNat (by omega) hpos]
    exact Vector.getElem_set_self hr

/-! ### Commands issued one after another -/

/-- A run goes on from where its first part ends. -/
theorem run_add (n : Nat) {m : Nat} {s t : State} (h : core.run m s = .next t) :
    core.run (m + n) s = core.run n t := by
  induction m generalizing s with
  | zero =>
    obtain rfl : s = t := Host.Outcome.next.inj h
    rw [Nat.zero_add]
  | succ m ih =>
    obtain ⟨u, hu, hrun⟩ := run_succ_next h
    rw [Nat.succ_add, run_succ _ hu, ih hrun]

/-- The first of the commands to come, where it passes its check, takes two steps: its issue and its performing. -/
theorem run_command {i : Instr} {is : List Instr} {s t : State} (n : Nat) (hwf : i.wf = true) (hb : s.busy = false)
    (hc : checkState i s = none) (hts : s.turns = commandTurns (i :: is))
    (he : exec i (withTurns (commandTurns is) s) = .next t) : core.run (2 + n) s = core.run n t := by
  obtain ⟨u, t', hrun, he', rfl⟩ := issuedCommandIsPerformed s i (commandTurns is) hwf hb hc hts
  obtain rfl : t = u := Host.Outcome.next.inj (he.symm.trans he')
  exact run_add n hrun

/-! ### Ten KEY_ROUNDs (R128) -/

theorem toNat_roundArg {k : Nat} (hk : k < 10) : (BitVec.ofNat 4 k).toNat = k := by
  rw [BitVec.toNat_ofNat, Nat.mod_eq_of_lt (by omega)]

/-- The KEY_ROUNDs of the rounds from `k` on, `n` of them. -/
def keyRounds (k n : Nat) : List Instr := (List.range' k n).map fun r => .keyRound (BitVec.ofNat 4 r)

/-- The core is idle with the whole key K, and the first `k` entries of its schedule are derived and valid, the last of
them by a command that is done. -/
structure DerivedUpTo (K : Block) (k : Nat) (s : State) : Prop where
  key : s.key = K
  keyv : s.keyv = 0b1111
  busy : s.busy = false
  rk : ∀ q : Fin 10, q.val < k → s.rk[q.val] = (expandKey K)[q.val]
  rkv : ∀ q : Fin 10, q.val < k → s.rkv[q.val] = true
  done : k ≠ 0 → s.done = true

namespace DerivedUpTo
variable {K : Block} {k : Nat} {s : State}

/-- KEY_ROUND k needs the key and the entry before k (30_encoding.md R84). -/
theorem check_keyRound (h : DerivedUpTo K k s) (hk : k < 10) : checkState (.keyRound (BitVec.ofNat 4 k)) s = none := by
  have hentries : ¬ ∃ r ∈ needsEntries (.keyRound (BitVec.ofNat 4 k)), s.rkv.getLsbD r = false := by
    rintro ⟨r, hr, hbit⟩
    obtain ⟨hpos, rfl⟩ := (mem_entryBefore _ _).mp hr
    rw [toNat_roundArg hk] at hpos hbit
    rw [BitVec.getLsbD_eq_getElem (by omega), h.rkv ⟨k - 1, by omega⟩ (by dsimp only; omega)] at hbit
    cases hbit
  simp [checkState_eq, h.keyv, needsData, hentries]

/-- The entry that KEY_ROUND k derives is the one that ExpandKey derives (R124). -/
theorem keyRound_roundKey (h : DerivedUpTo K k s) (hk : k < 10) :
    keyRound (roundKey ⟨k, Nat.lt_succ_of_lt hk⟩ s) ⟨k, hk⟩ = (expandKey K)[k] := by
  cases k with
  | zero => rw [roundKey_zero, h.key, expandKey_zero]; rfl
  | succ n => rw [roundKey_succ, h.rk ⟨n, by omega⟩ n.lt_succ_self, expandKey_succ]

/-- One KEY_ROUND more, one entry more. -/
theorem exec_keyRound (h : DerivedUpTo K k s) (hk : k < 10) :
    ∃ t, exec (.keyRound (BitVec.ofNat 4 k)) s = .next t ∧ t.turns = s.turns ∧ DerivedUpTo K (k + 1) t := by
  have hexec := Machine.exec_keyRound s (BitVec.ofNat 4 k) ((toNat_roundArg hk).trans_lt hk)
  simp only [toNat_roundArg hk, h.keyRound_roundKey hk] at hexec
  refine ⟨_, hexec, rfl, h.key, h.keyv, rfl, fun q hq => ?_, fun q hq => ?_, fun _ => rfl⟩
  · obtain hqk | hqk : q.val = k ∨ q.val < k := by omega
    · simp [hqk]
    · exact (Vector.getElem_set_ne hk q.isLt hqk.ne').trans (h.rk q hqk)
  · obtain hqk | hqk : q.val = k ∨ q.val < k := by omega
    · exact (Fin.ext hqk : q = ⟨k, hk⟩) ▸ getElem_markEntry_self _ ⟨k, hk⟩
    · exact (getElem_markEntry_ne _ hqk.ne).trans (h.rkv q hqk)

theorem withTurns (h : DerivedUpTo K k s) (ts : List Turn) : DerivedUpTo K k (withTurns ts s) :=
  ⟨h.key, h.keyv, h.busy, h.rk, h.rkv, h.done⟩

/-- By induction on the KEY_ROUNDs to come. -/
theorem run_keyRounds (n : Nat) (h : DerivedUpTo K k s) (hk : k + n ≤ 10)
    (hts : s.turns = commandTurns (keyRounds k n)) : ∃ t, core.run (2 * n) s = .next t ∧ DerivedUpTo K (k + n) t := by
  induction n generalizing k s with
  | zero => exact ⟨s, rfl, h⟩
  | succ n ih =>
    obtain ⟨t, he, hturns, ht⟩ := (h.withTurns (commandTurns (keyRounds (k + 1) n))).exec_keyRound (by omega)
    obtain ⟨u, hrun, hu⟩ := ih ht (by omega) hturns
    have hwf : (Instr.keyRound (BitVec.ofNat 4 k)).wf = true :=
      decide_eq_true (by rw [toNat_roundArg (by omega)]; omega)
    refine ⟨u, ?_, by rwa [Nat.succ_add_eq_add_succ] at hu⟩
    rw [Nat.mul_succ, Nat.add_comm, run_command (2 * n) hwf h.busy (h.check_keyRound (by omega)) hts he, hrun]

/-- With ten entries derived the schedule is the key's own, and whole. -/
theorem rk_eq (h : DerivedUpTo K 10 s) : s.rk = expandKey K :=
  Vector.ext fun q hq => h.rk ⟨q, hq⟩ hq

theorem rkv_eq (h : DerivedUpTo K 10 s) : s.rkv = 0x3FF :=
  entries_ext fun q => by rw [h.rkv q q.isLt]; revert q; decide

end DerivedUpTo

/-- One EXPAND_KEY, issued to an idle core with a whole key. -/
theorem run_expandKey {s : State} (hk : s.keyv = 0b1111) (hb : s.busy = false)
    (hts : s.turns = commandTurns [.expandKey]) :
    core.run 2 s = .next (finish (setSchedule (expandKey s.key) (withTurns [] s))) := by
  have hc : checkState .expandKey s = none := by simp [checkState_eq, hk, needsData, needsEntries]
  exact run_command 0 rfl hb hc hts (exec_expandKey _)

/-- Settles O23: either way the schedule is the one of the key, whole and valid. -/
theorem tenKeyRoundsEqualOneExpandKey : Obligations.TenKeyRoundsEqualOneExpandKey := by
  intro s hk hb
  have hstart : DerivedUpTo s.key 0 (withTurns (commandTurns (keyRounds 0 10)) s) :=
    ⟨rfl, hk, hb, fun q hq => absurd hq (Nat.not_lt_zero _), fun q hq => absurd hq (Nat.not_lt_zero _),
      fun h => absurd rfl h⟩
  obtain ⟨t, hrun, ht⟩ := hstart.run_keyRounds 10 (by omega) rfl
  refine ⟨t, _, by rw [List.range_eq_range']; exact hrun,
    run_expandKey (s := withTurns (commandTurns [.expandKey]) s) hk hb rfl, ?_⟩
  exact ⟨ht.rk_eq, ht.rkv_eq, ht.rk_eq, ht.rkv_eq, ht.done (by omega), ht.busy, rfl, rfl⟩

end Sys2Proof.Machine
end

section
/-! PROOFS. The round transformations on Blocks (42_cipher_engine.md R140 to R147), byte by byte in rows and columns,
and the laws they obey (R158). -/

namespace Sys2Proof.Machine

/-! ### A Block by rows and columns (00_scope.md R14) -/

/-- The byte in row `r` and column `c`. Both are counted modulo 4, as ShiftRows and MixColumns count them. -/
def byteAt (b : Block) (r c : Fin 4) : Byte := b[4 * c.val + r.val]

section rowsAndColumns
variable (b x : Block) (r c : Fin 4)

theorem getElem_eq_byteAt (i : Fin 16) : b[i] = byteAt b ⟨i.val % 4, by omega⟩ ⟨i.val / 4, by omega⟩ := by
  simp only [byteAt, Fin.getElem_fin, Nat.div_add_mod]

theorem getElem_row_add_column : b[r.val + 4 * c.val] = byteAt b r c := by
  simp only [byteAt, Nat.add_comm]

variable {b x} in
theorem block_ext_byteAt (h : ∀ r c, byteAt b r c = byteAt x r c) : b = x :=
  block_ext fun i => by rw [getElem_eq_byteAt, getElem_eq_byteAt x, h]

theorem row_of_index : (4 * c.val + r.val) % 4 = r.val := by omega

theorem column_of_index : (4 * c.val + r.val) / 4 = c.val := by omega

theorem byteAt_addRoundKey : byteAt (addRoundKey b x) r c = byteAt b r c ^^^ byteAt x r c :=
  getElem_addRoundKey b x _ _

/-- Row `r` is rotated left by `r` positions (R141). -/
theorem byteAt_shiftRows : byteAt (shiftRows b) r c = byteAt b r (c + r) := by
  rw [byteAt, getElem_shiftRows, ← getElem_row_add_column]
  simp only [row_of_index, column_of_index, Fin.val_add]

theorem getElem_shiftRows_row_add_column :
    (shiftRows b)[r.val + 4 * c.val] = b[r.val + 4 * ((c.val + r.val) % 4)]'(by omega) :=
  calc (shiftRows b)[r.val + 4 * c.val]
    _ = byteAt b r (c + r) := by rw [getElem_row_add_column, byteAt_shiftRows]
    _ = b[r.val + 4 * (c + r).val] := (getElem_row_add_column b r (c + r)).symm

/-- Row `r` of the matrix times column `c` (R142). -/
theorem byteAt_mixColumns : byteAt (mixColumns b) r c =
    mul mixMatrix[r][0] (byteAt b 0 c) ^^^ mul mixMatrix[r][1] (byteAt b 1 c) ^^^
      mul mixMatrix[r][2] (byteAt b 2 c) ^^^ mul mixMatrix[r][3] (byteAt b 3 c) := by
  rw [byteAt, getElem_mixColumns]
  simp only [row_of_index, column_of_index, ← getElem_row_add_column b]
  rfl

end rowsAndColumns

/-- Settles O11: the lemmas on the bytes of each transformation, ShiftRows by row and column. -/
theorem byteTransformationsMapTheirBytes : Obligations.ByteTransformationsMapTheirBytes := fun b x =>
  ⟨fun i => getElem_subBytes b i.val i.isLt, getElem_shiftRows_row_add_column b,
    fun i => getElem_addRoundKey b x i.val i.isLt⟩

/-- Settles O12: each index of ShiftRows is computed; in MixColumns each row of the matrix is one of the formulas. -/
theorem shiftRowsListAndMixColumnsFormulas : Obligations.ShiftRowsListAndMixColumnsFormulas := fun b =>
  ⟨rfl, fun c =>
    ⟨byteAt_mixColumns b 0 c, byteAt_mixColumns b 1 c, byteAt_mixColumns b 2 c, byteAt_mixColumns b 3 c⟩⟩

/-! ### MixColumns is linear (R158) -/

/-- Doubling is linear: so is the shift, and the two high bits reduce the sum as they reduce its terms (R102). -/
theorem xtime_xor (a b : Byte) : xtime (a ^^^ b) = xtime a ^^^ xtime b := by
  have hreduce : ∀ p q : Bool, (if (p ^^ q) = true then (0x1B : Byte) else 0x00) =
      (if p = true then 0x1B else 0x00) ^^^ (if q = true then 0x1B else 0x00) := by decide
  simp only [xtime, BitVec.getElem_xor, BitVec.shiftLeft_xor_distrib, hreduce]
  ac_rfl

/-- Each row of the matrix is the one before it moved on by a column, so one formula gives all four rows. -/
theorem byteAt_mixColumns_circulant (b : Block) (r c : Fin 4) : byteAt (mixColumns b) r c =
    xtime (byteAt b r c ^^^ byteAt b (r + 1) c) ^^^
      (byteAt b (r + 1) c ^^^ byteAt b (r + 2) c ^^^ byteAt b (r + 3) c) := by
  rw [byteAt_mixColumns, xtime_xor]
  match r with
  | 0 | 1 | 2 | 3 => simp [mixMatrix, mul]; ac_nf

theorem mixColumns_addRoundKey (a b : Block) :
    mixColumns (addRoundKey a b) = addRoundKey (mixColumns a) (mixColumns b) := by
  refine block_ext_byteAt fun r c => ?_
  simp only [byteAt_addRoundKey, byteAt_mixColumns_circulant, xtime_xor]
  ac_nf

/-! ### The bijections (R158) -/

theorem addRoundKey_addRoundKey (b x : Block) : addRoundKey (addRoundKey b x) x = b := by
  refine block_ext_byteAt fun r c => ?_
  rw [byteAt_addRoundKey, byteAt_addRoundKey, BitVec.xor_assoc, BitVec.xor_self, BitVec.xor_zero]

/-- Four rotations by `r` of a row of four bytes bring each byte back. -/
theorem shiftRows_four (b : Block) : shiftRows (shiftRows (shiftRows (shiftRows b))) = b := by
  have hturn : ∀ r c : Fin 4, c + r + r + r + r = c := by decide
  refine block_ext_byteAt fun r c => ?_
  simp only [byteAt_shiftRows, hturn]

/-- The square of the matrix: the terms of rows `r + 1` and `r + 3` cancel. -/
theorem byteAt_mixColumns_mixColumns (b : Block) (r c : Fin 4) : byteAt (mixColumns (mixColumns b)) r c =
    byteAt b r c ^^^ xtime (xtime (byteAt b r c ^^^ byteAt b (r + 2) c)) := by
  simp only [byteAt_mixColumns_circulant, xtime_xor, add_assoc, Fin.reduceAdd, add_zero]
  ac_nf
  simp only [xor_cancel_left, BitVec.xor_self, BitVec.xor_zero]

/-- The matrix has order 4: in its square's square the doubled terms cancel too. -/
theorem mixColumns_four (b : Block) : mixColumns (mixColumns (mixColumns (mixColumns b))) = b := by
  refine block_ext_byteAt fun r c => ?_
  simp only [byteAt_mixColumns_mixColumns, xtime_xor, add_assoc, Fin.reduceAdd, add_zero]
  ac_nf
  simp only [xor_cancel_left]

/-- A transformation that done four times does nothing is a bijection, since its square is an involution. -/
theorem bijective_of_four {f : Block → Block} (h : ∀ b, f (f (f (f b))) = b) : Function.Bijective f :=
  have hsquare : Function.Involutive (f ∘ f) := h
  ⟨hsquare.injective.of_comp, hsquare.surjective.of_comp⟩

/-- The S-box is a bijection on bytes (R108), so its inverse, byte by byte, undoes SubBytes. -/
theorem subBytes_bijective : Function.Bijective subBytes := by
  obtain ⟨g, hleft, hright⟩ := Function.bijective_iff_has_inverse.mp ⟨sbox_injective, sbox_surjective⟩
  refine Function.bijective_iff_has_inverse.mpr ⟨Vector.map g, fun b => ?_, fun b => ?_⟩
  · rw [subBytes, Vector.map_map, hleft.comp_eq_id, Vector.map_id]
  · rw [subBytes, Vector.map_map, hright.comp_eq_id, Vector.map_id]

/-- Settles O13: ShiftRows and MixColumns both have order 4, SubBytes has the S-box's inverse, and MixColumns is linear
because doubling is. -/
theorem roundTransformationsObeyTheirLaws : Obligations.RoundTransformationsObeyTheirLaws :=
  ⟨shiftRows_four, addRoundKey_addRoundKey, subBytes_bijective, bijective_of_four shiftRows_four,
    bijective_of_four mixColumns_four, mixColumns_addRoundKey⟩

end Sys2Proof.Machine
end

section
/-! PROOFS. The six commands that work in place on DATA (42_cipher_engine.md R150 to R155), and the laws that tie
ENCRYPT to the rounds and the rounds to their steps (R156, R157). -/

namespace Sys2Proof.Machine

/-! ### The rounds of the cipher (R144, R145) -/

section rounds
variable (K : Block) (S : Schedule) (P : Block)

/-- DATA after the whitening and the first `n` rounds of `Encrypt(K, S, P)` (R145). -/
def afterRounds (n : Nat) : Block :=
  ((List.finRange 10).take n).foldl (fun st j => cipherRound st S[j] (j.val + 1)) (addRoundKey P K)

theorem afterRounds_zero : afterRounds K S P 0 = addRoundKey P K := rfl

theorem afterRounds_succ {n : Nat} (h : n < 10) :
    afterRounds K S P (n + 1) = cipherRound (afterRounds K S P n) S[n] (n + 1) := by
  have hnext : (List.finRange 10)[n]? = some ⟨n, h⟩ := by simp [h]
  simp [afterRounds, List.take_add_one, hnext]

theorem afterRounds_ten : afterRounds K S P 10 = encryptBlock K S P := rfl

variable (b x : Block)

theorem cipherRound_of_lt {j : Nat} (h : j < 10) :
    cipherRound b x j = addRoundKey (mixColumns (shiftRows (subBytes b))) x := by
  rw [cipherRound, if_neg h.ne]

theorem cipherRound_ten : cipherRound b x 10 = addRoundKey (shiftRows (subBytes b)) x := rfl

end rounds

/-! ### The commands, each with its result and its frame (R148, R150 to R155) -/

section commands
variable (s : State) (b : Block)

/-- The frame of every command that works on DATA (R148). -/
theorem finish_setData_keeps : KeepsAllButData s (finish (setData b s)) :=
  ⟨rfl, rfl, rfl, rfl, rfl, rfl, rfl, rfl, rfl, rfl, rfl⟩

/-- No such command touches a round key. -/
theorem roundKey_finish_setData (k : Fin 11) : roundKey k (finish (setData b s)) = roundKey k s := rfl

end commands

/-- Settles O16: the vector holds what each round leaves, up to the tenth. -/
theorem encryptRunsWhiteningAndTenRounds : Obligations.EncryptRunsWhiteningAndTenRounds := by
  intro s
  refine ⟨_, Vector.ofFn fun n => afterRounds s.key s.rk s.data n.val, exec_encrypt s, ?_, fun j => ?_, ?_,
    finish_finished _, finish_setData_keeps s _⟩
  · rw [Vector.getElem_ofFn, afterRounds_zero]
  · rw [Vector.getElem_ofFn, Vector.getElem_ofFn, afterRounds_succ _ _ _ j.isLt, Fin.getElem_fin]
  · rw [Vector.getElem_ofFn, afterRounds_ten, finish_data, setData_data]

/-- Settles O17: the bytes of AddRoundKey, with the round key that k names. -/
theorem addRoundKeyXorsTheRoundKey : Obligations.AddRoundKeyXorsTheRoundKey := by
  intro s k hk
  refine ⟨_, exec_addRoundKey s k hk, ?_, fun hpos i => ?_, finish_finished _, finish_setData_keeps s _⟩
  · rintro rfl i
    exact getElem_addRoundKey _ _ i.val i.isLt
  · rw [← roundKey_pos s k.toNat hk hpos]
    exact getElem_addRoundKey _ _ i.val i.isLt

/-- Settles O18: the bytes of SubBytes. -/
theorem subBytesSubstitutesEveryByte : Obligations.SubBytesSubstitutesEveryByte := fun s =>
  ⟨_, exec_subBytes s, fun i => getElem_subBytes s.data i.val i.isLt, finish_finished _, finish_setData_keeps s _⟩

/-- Settles O19: the bytes of ShiftRows, by row and column. -/
theorem shiftRowsRotatesEveryRow : Obligations.ShiftRowsRotatesEveryRow := fun s =>
  ⟨_, exec_shiftRows s, getElem_shiftRows_row_add_column s.data, finish_finished _, finish_setData_keeps s _⟩

/-- Settles O20: the rows of the matrix on each column. -/
theorem mixColumnsMultipliesEveryColumn : Obligations.MixColumnsMultipliesEveryColumn := fun s =>
  ⟨_, exec_mixColumns s, fun c => ⟨byteAt_mixColumns s.data 0 c, byteAt_mixColumns s.data 1 c,
    byteAt_mixColumns s.data 2 c, byteAt_mixColumns s.data 3 c⟩, finish_finished _, finish_setData_keeps s _⟩

/-- Settles O21: round key number j is RK[j-1], and only the tenth round leaves out the mixing. -/
theorem roundRunsItsStepsAndRoundTenSkipsMixing : Obligations.RoundRunsItsStepsAndRoundTenSkipsMixing := by
  intro s j hpos hj
  refine ⟨_, exec_round s j hpos hj, fun hlt => ?_, fun hten => ?_, finish_finished _, finish_setData_keeps s _⟩
  · rw [finish_data, setData_data, roundKey_pos s _ hj hpos, cipherRound_of_lt _ _ hlt]
  · simp only [finish_data, setData_data, hten, roundKey_succ, cipherRound_ten]

/-- Settles O25: the steps of the round, one command each; none of them changes the round key of the last. -/
theorem roundEqualsItsPrimitives : Obligations.RoundEqualsItsPrimitives := by
  intro s j hpos hle
  have hj : j.toNat < 11 := by omega
  obtain hlt | hten : j.toNat < 10 ∨ j.toNat = 10 := by omega
  · refine ⟨_, _, _, _, exec_round s j hpos hj, exec_subBytes s, exec_shiftRows _, fun _ => exec_mixColumns _,
      fun hten => absurd hten hlt.ne, _, exec_addRoundKey _ j hj, ?_⟩
    simp only [finish_data, setData_data, roundKey_finish_setData, cipherRound_of_lt _ _ hlt]
  · refine ⟨_, _, _, _, exec_round s j hpos hj, exec_subBytes s, exec_shiftRows _,
      fun hle => absurd hten (by omega), fun _ => rfl, _, exec_addRoundKey _ j hj, ?_⟩
    simp only [finish_data, setData_data, roundKey_finish_setData, hten, cipherRound_ten]

/-! ### The whitening and ten rounds, issued one after another (R156) -/

/-- With all three masks whole, every command passes its checks (30_encoding.md R84). -/
theorem checkState_of_whole {i : Instr} {s : State} (hwf : i.wf = true) (hk : s.keyv = 0b1111)
    (hd : s.datav = 0b1111) (hr : s.rkv = 0x3FF) : checkState i s = none := by
  have hentries : ¬ ∃ r ∈ needsEntries i, s.rkv.getLsbD r = false := by
    rw [missing_entry_iff hwf, hr]
    rintro ⟨r, -, hbit⟩
    revert r
    decide
  simp [checkState_eq, hk, hd, hentries]

/-- The core is idle with its masks whole, and DATA has gone through the first `k` rounds of `Encrypt(K, S, P)`. -/
structure RoundsDone (K : Block) (S : Schedule) (P : Block) (k : Nat) (t : State) : Prop where
  keyv : t.keyv = 0b1111
  datav : t.datav = 0b1111
  rkv : t.rkv = 0x3FF
  busy : t.busy = false
  rk : t.rk = S
  data : t.data = afterRounds K S P k

/-- The ROUNDs after round `k`, `n` of them. -/
def roundsAfter (k n : Nat) : List Instr := (List.range' k n).map fun j => .round (BitVec.ofNat 4 (j + 1))

namespace RoundsDone
variable {K : Block} {S : Schedule} {P : Block} {k : Nat} {t : State}

theorem withTurns (h : RoundsDone K S P k t) (ts : List Turn) : RoundsDone K S P k (withTurns ts t) :=
  ⟨h.keyv, h.datav, h.rkv, h.busy, h.rk, h.data⟩

/-- One ROUND more is one round more. -/
theorem exec_round (h : RoundsDone K S P k t) (hk : k < 10) :
    ∃ u, exec (.round (BitVec.ofNat 4 (k + 1))) t = .next u ∧ u.turns = t.turns ∧ RoundsDone K S P (k + 1) u := by
  have harg : (BitVec.ofNat 4 (k + 1)).toNat = k + 1 := toNat_ofNat_arg hk
  have hexec := Machine.exec_round t (BitVec.ofNat 4 (k + 1)) (by omega) (by omega)
  simp only [harg, roundKey_succ, h.rk, h.data, ← afterRounds_succ K S P hk] at hexec
  exact ⟨_, hexec, rfl, h.keyv, h.datav, h.rkv, rfl, h.rk, rfl⟩

/-- By induction on the ROUNDs to come. -/
theorem run_rounds (n : Nat) (h : RoundsDone K S P k t) (hk : k + n ≤ 10)
    (hts : t.turns = commandTurns (roundsAfter k n)) :
    ∃ u, core.run (2 * n) t = .next u ∧ RoundsDone K S P (k + n) u := by
  induction n generalizing k t with
  | zero => exact ⟨t, rfl, h⟩
  | succ n ih =>
    obtain ⟨u, he, hturns, hu⟩ := (h.withTurns (commandTurns (roundsAfter (k + 1) n))).exec_round (by omega)
    obtain ⟨v, hrun, hv⟩ := ih hu (by omega) hturns
    have hwf : (Instr.round (BitVec.ofNat 4 (k + 1))).wf = true :=
      decide_eq_true (by rw [toNat_ofNat_arg (by omega)]; omega)
    have hfirst := run_command (2 * n) hwf h.busy (checkState_of_whole hwf h.keyv h.datav h.rkv) hts he
    refine ⟨v, ?_, by rwa [Nat.succ_add_eq_add_succ] at hv⟩
    rw [Nat.mul_succ, Nat.add_comm, hfirst, hrun]

end RoundsDone

/-- Settles O24: the whitening is the state before round 1, and ten rounds after it are ENCRYPT. -/
theorem whiteningAndTenRoundsEqualOneEncrypt : Obligations.WhiteningAndTenRoundsEqualOneEncrypt := by
  intro s hk hd hr hb
  have hrun {i : Instr} {is : List Instr} {t : State} (n : Nat) (hwf : i.wf = true) :=
    run_command (is := is) (s := withTurns (commandTurns (i :: is)) s) (t := t) n hwf hb
      (checkState_of_whole hwf hk hd hr) rfl
  have hwhite : RoundsDone s.key s.rk s.data 0
      (finish (setData (addRoundKey s.data s.key) (withTurns (commandTurns (roundsAfter 0 10)) s))) :=
    ⟨hk, hd, hr, rfl, rfl, rfl⟩
  obtain ⟨t, hrounds, ht⟩ := hwhite.run_rounds 10 (by omega) rfl
  refine ⟨t, _, ?_, hrun 0 rfl (exec_encrypt _), ht.data.trans (afterRounds_ten _ _ _), rfl⟩
  rw [List.range_eq_range']
  exact (hrun 20 rfl (exec_addRoundKey _ 0 (by decide))).trans hrounds

end Sys2Proof.Machine
end

section
/-! PROOFS. Rejections (60_exceptions.md R170 to R177): which codes a host write raises, by its offset, and what STATUS
tells after a write to CMD. -/

namespace Sys2Proof.Machine

/-! ### The codes of a host write (R170 to R175) -/

/-- The check of a command has four outcomes: one of its three kinds of preconditions fails, or none does (R84, R85). -/
theorem checkState_outcomes (i : Instr) (s : State) :
    checkState i s = some .keyLength ∨ checkState i s = some .dataLength ∨ checkState i s = some .schedule ∨
    checkState i s = none := by
  rw [checkState_eq]
  split_ifs <;> simp

/-- A legal word fails no check but those of its command's preconditions (R85). -/
theorem check_of_legal {v : Word} (hv : ¬ IllegalWord v) (s : State) :
    check v s = some .keyLength ∨ check v s = some .dataLength ∨ check v s = some .schedule ∨ check v s = none := by
  obtain ⟨i, hi⟩ := exists_decode_of_legal hv
  rw [check_of_decode hi]
  exact checkState_outcomes i s

/-- While BUSY = 0 a write to KEYc or DATAc is accepted, and raises and clears no code (R58, R59). -/
theorem busWrite_register_keeps_error {w : Widx} (v : Word) {s : State} (hb : s.busy = false)
    (hw : 0x010 ≤ offsetOf w ∧ offsetOf w ≤ 0x02C) :
    (busWrite w v s).err = s.err ∧ (busWrite w v s).errcode = s.errcode := by
  rcases busWrite_key_or_data v s hw with ⟨c, -, -, hkey⟩ | ⟨c, -, -, hdata⟩
  · simp [hkey, writeKey_of_idle c v hb]
  · simp [hdata, writeData_of_idle c v hb]

/-- A write to STATUS leaves ERR and ERRCODE as they are, or clears both (R57, R179). -/
theorem writeStatus_error (v : Word) (s : State) :
    ((writeStatus v s).err = s.err ∧ (writeStatus v s).errcode = s.errcode) ∨
    ((writeStatus v s).err = false ∧ (writeStatus v s).errcode = 0) := by
  by_cases hv : v[2] = true
  · exact .inr (by simp [hv])
  · exact .inl (by simp [hv])

/-- Settles O48: each clause is the write of its register, and the last one the rejection with ADDR. -/
theorem eachWriteRaisesOnlyTheCodesOfItsOffset : Obligations.EachWriteRaisesOnlyTheCodesOfItsOffset := by
  intro s w v t rejected
  refine ⟨fun hregs =>
      ⟨fun hb => busWrite_of_busy v hb (.inr hregs), fun hb => busWrite_register_keeps_error v hb hregs⟩,
    fun hcmd => ?_, fun hstatus => ?_, fun ⟨hstatus, hcmd, hregs⟩ => busWrite_addr v s hstatus hcmd hregs⟩
  · have ht : t = issueCommand v s := busWrite_of_cmd v s (by rw [widx_of_offset hcmd, region_cmd])
    refine ⟨fun hb => ht.trans (issueCommand_of_busy v hb),
      fun hb hv => ht.trans (issueCommand_of_failed hb (check_of_illegal hv s)), fun hb hv => ?_⟩
    rcases check_of_legal hv s with hc | hc | hc | hc
    · exact .inl ⟨hc, ht.trans (issueCommand_of_failed hb hc)⟩
    · exact .inr (.inl ⟨hc, ht.trans (issueCommand_of_failed hb hc)⟩)
    · exact .inr (.inr (.inl ⟨hc, ht.trans (issueCommand_of_failed hb hc)⟩))
    · rw [ht, issueCommand_of_passed hb hc]
      exact .inr (.inr (.inr ⟨hc, rfl, rfl, rfl⟩))
  · have ht : t = writeStatus v s := busWrite_of_status v s (by rw [widx_of_offset hstatus, region_status])
    rw [ht]
    exact writeStatus_error v s

/-! ### Acceptance and rejection in STATUS (R177) -/

/-- STATUS of `t` tells whether the write of `v` to CMD in `s` was rejected: ERR = 1 says that it was, and where ERR = 0
the command is pending or done (R177). -/
structure StatusTells (s : State) (v : Word) (t : State) : Prop where
  err_iff_rejected : t.err = true ↔ s.busy = true ∨ check v s ≠ none
  accepted : t.err = false → t.busy = true ∨ t.done = true

/-- Right after the write to CMD, with ERR clear before it: a rejection sets ERR, and an acceptance sets BUSY. -/
theorem statusTells_issueCommand {s : State} (v : Word) (he : s.err = false) : StatusTells s v (issueCommand v s) := by
  rcases issueCommand_cases v s with ⟨hb, h⟩ | ⟨e, hb, hc, h⟩ | ⟨hb, hc, h⟩ <;> rw [h]
  · exact ⟨by simp [hb], by simp⟩
  · exact ⟨by simp [hc], by simp⟩
  · exact ⟨by simp [he, hb, hc], by simp⟩

/-- No step of the Engine touches ERR (R32). -/
theorem engine_keeps_err {s t : State} (h : step s = .next t) (he : EngineNext s) : t.err = s.err := by
  rcases errorFieldsChangeOnlyByRejectionClearOrReset s t h with
    ⟨herr, -⟩ | ⟨w, v, rest, e, ht, -⟩ | ⟨v, rest, hw, -⟩ | ⟨rest, ht, -⟩
  · exact herr
  · exact absurd he (not_engineNext_host ht)
  · exact absurd he (not_engineNext_host hw)
  · exact absurd he (not_engineNext_reset ht)

/-- A step of the Engine leaves no accepted command untold: what is pending becomes done, and what is done stays so. -/
theorem engine_done_of_busy_or_done {s t : State} (hs : s.Inv) (h : step s = .next t) (he : EngineNext s)
    (hbd : s.busy = true ∨ s.done = true) : t.done = true := by
  by_cases hp : s.pend = none
  · have ht : t = withTurns s.turns.tail s :=
      Host.Outcome.next.inj (h.symm.trans ((step_engine he).trans (engineStep_none hp)))
    have hb : s.busy = false := by simp [hs.busy_iff_pending, hp]
    simpa [ht, hb] using hbd
  · exact (engine_completes h he hp).1

/-- An Engine turn after the write changes nothing in what STATUS tells. -/
theorem StatusTells.engine {s c t : State} {v : Word} (h : StatusTells s v c) (hc : c.Inv) (ht : step c = .next t)
    (he : EngineNext c) : StatusTells s v t := by
  have herr := engine_keeps_err ht he
  refine ⟨by rw [herr]; exact h.err_iff_rejected, fun h0 => .inr ?_⟩
  exact engine_done_of_busy_or_done hc ht he (h.accepted (herr ▸ h0))

/-- CLRSTAT, which is the word 6 written to STATUS (R91), clears ERR, and changes neither BUSY nor what the check of a
command depends on (R57). -/
theorem step_clrStat {s : State} {rest : List Turn} (hw : NextWrites s 0x004 6 rest) :
    ∃ u, step s = .next u ∧ u.turns = rest ∧ u.err = false ∧ u.busy = s.busy ∧ ∀ v, check v u = check v s := by
  refine ⟨writeStatus 6 (withTurns rest s), ?_, rfl, rfl, rfl, fun v => check_congr v rfl rfl rfl⟩
  rw [step_write hw, busWrite_of_status _ _ region_status]

/-- CLRSTAT and the write to CMD take two steps, which keep the invariant and leave the turns after them. -/
theorem run_clrStat_cmdWrite {s : State} {v : Word} {rest : List Turn} (hs : s.Inv)
    (hts : s.turns = .host (.write (widxOf 0x004) 6) :: .host (.write cmdWidx v) :: rest) :
    ∃ c, core.run 2 s = .next c ∧ c.Inv ∧ c.turns = rest ∧ StatusTells s v c := by
  obtain ⟨u, hclear, hturns, herr, hbusy, hcheck⟩ := step_clrStat hts
  have hwrite : step u = .next (issueCommand v (withTurns rest u)) := step_cmdWrite hturns
  have htells := statusTells_issueCommand (s := withTurns rest u) v herr
  refine ⟨_, (run_succ 1 hclear).trans (run_succ 0 hwrite), (hs.step hclear).step hwrite, ?_, ?_, htells.accepted⟩
  · rw [step_turns hwrite, hturns]
    rfl
  · rw [htells.err_iff_rejected, withTurns_busy, hbusy, check_withTurns, hcheck]

/-- Settles O49: STATUS tells it right after the write, and an Engine turn keeps it told. -/
theorem statusTellsAcceptanceFromRejection : Obligations.StatusTellsAcceptanceFromRejection := by
  intro s v engineTurns hs hturns hts
  obtain ⟨c, hrun, hc, hrest, htells⟩ := run_clrStat_cmdWrite hs hts
  rw [run_add engineTurns.length hrun]
  rcases hturns with rfl | rfl
  · exact ⟨c, rfl, htells.err_iff_rejected, htells.accepted⟩
  · have he := engineNext_cons hrest
    obtain ⟨t, ht⟩ := hc.step_goes_on
    have htells' := htells.engine hc ht he
    exact ⟨t, run_succ 0 ht, htells'.err_iff_rejected, htells'.accepted⟩

end Sys2Proof.Machine
end

section
/-! PROOFS. The reset and what registers read after it (70_reset_and_hazards.md R200, R201), and the commands that a
write to a KEY word blocks (R211). -/

namespace Sys2Proof.Machine

/-! ### The reset (R200) -/

theorem getElem_zeroBlock (i : Fin 16) : zeroBlock[i] = 0 := by simp [zeroBlock]

theorem reset_rk (r : Fin 10) : State.reset.rk[r] = zeroBlock := by simp [State.reset]

/-- Settles O51: the reset step takes every field from the reset state, and of all other steps a write to a KEY or a
DATA word alone touches KEYV or DATAV, where it sets a bit. -/
theorem resetSetsEveryPieceOfState : Obligations.ResetSetsEveryPieceOfState := by
  refine ⟨fun s rest ht => ⟨_, step_reset ht, fun i => ⟨getElem_zeroBlock i, getElem_zeroBlock i⟩, fun r i => ?_,
    rfl, rfl, rfl, rfl, rfl, rfl, rfl, rfl, rfl, rfl, rfl, rfl⟩, fun s t h hnr c => ?_⟩
  · simp only [resetCore_rk, reset_rk, getElem_zeroBlock]
  · obtain ⟨hkeyv, -⟩ := keyChangesOnlyByHostOrReset s t h hnr
    obtain ⟨hdatav, -⟩ := dataChangesOnlyByHostEngineOrReset s t h hnr
    exact ⟨hkeyv c, hdatav c⟩

/-! ### Reads right after reset (R201) -/

theorem blockWord_zeroBlock (c : Fin 4) : blockWord zeroBlock c = 0 := by
  revert c
  decide

theorem statusWord_reset : statusWord State.reset = 0 := by decide

theorem validWord_reset : validWord State.reset.rkv State.reset = 0 := by decide

/-- Settles O52: outside ID and the ROM windows each region reads as a register that holds 0, or is reserved. -/
theorem registersReadTheirResetValues : Obligations.RegistersReadTheirResetValues := by
  intro w
  refine ⟨fun hid => by rw [hid, busRead_of_id _ region_id]; rfl, fun hid hrom => ?_⟩
  change ¬ (0x400 ≤ offsetOf w ∧ offsetOf w ≤ 0x824) at hrom
  rcases region_cases w with ⟨ho, -⟩ | ⟨-, hr⟩ | ⟨-, hr⟩ | ⟨-, hr⟩ | ⟨c, -, hr⟩ | ⟨c, -, hr⟩ | ⟨r, c, -, hr⟩ |
    ⟨v, ho, -⟩ | ⟨i, ho, -⟩ | ⟨-, hr⟩
  · exact absurd (widx_of_offset ho) hid
  · rw [busRead_of_status _ hr, statusWord_reset]
  · exact (busRead_of_valid _ hr).trans validWord_reset
  · exact busRead_of_cmd _ hr
  · exact (busRead_of_key _ hr).trans (blockWord_zeroBlock c)
  · exact (busRead_of_data _ hr).trans (blockWord_zeroBlock c)
  · exact (busRead_of_rk _ hr).trans (by rw [reset_rk, blockWord_zeroBlock]; rfl)
  · have := v.isLt
    omega
  · omega
  · exact busRead_of_reserved _ hr

/-! ### A KEY write blocks the commands that need the schedule (R211, R84) -/

/-- The command reads an entry of the schedule (R84). -/
def ReadsSchedule (i : Instr) : Prop :=
  i = .encrypt ∨ (∃ j, i = .round j) ∨ (∃ k, i = .addRoundKey k ∧ k ≠ 0) ∨ ∃ r, i = .keyRound r ∧ r ≠ 0

theorem exists_mem_entryBefore {n : Arg} (h : n ≠ 0) : ∃ r, r ∈ entryBefore n := by
  rw [entryBefore, if_neg h]
  exact ⟨_, List.mem_singleton_self _⟩

section readsSchedule
variable {i : Instr} (hi : ReadsSchedule i)
include hi

/-- What such a command needs of the schedule is at least one entry; ROUND 0 is no command. -/
theorem ReadsSchedule.exists_mem_needsEntries (hwf : i.wf = true) : ∃ r, r ∈ needsEntries i := by
  rcases hi with rfl | ⟨j, rfl⟩ | ⟨k, rfl, hk⟩ | ⟨r, rfl, hr⟩
  · exact ⟨0, by decide⟩
  · have hj : j ≠ 0 := by
      rintro rfl
      cases hwf
    exact exists_mem_entryBefore hj
  · exact exists_mem_entryBefore hk
  · exact exists_mem_entryBefore hr

/-- Only two of these commands need the key as well. -/
theorem ReadsSchedule.of_needsKey (h : needsKey i = true) : i = .encrypt ∨ ∃ r, i = .keyRound r := by
  rcases hi with rfl | ⟨j, rfl⟩ | ⟨k, rfl, hk⟩ | ⟨r, rfl, -⟩
  · exact .inl rfl
  · cases h
  · exact absurd (of_decide_eq_true h) hk
  · exact .inr ⟨r, rfl⟩

end readsSchedule

theorem ne_keyRound_of_needsData {i : Instr} (h : needsData i = true) (r : Arg) : i ≠ .keyRound r := by
  rintro rfl
  cases h

section missingEntry
variable {i : Instr} {s : State} (hmissing : ∃ r ∈ needsEntries i, s.rkv.getLsbD r = false)
include hmissing

theorem checkState_ne_none_of_missing : checkState i s ≠ none := by
  obtain ⟨r, hr, hbit⟩ := hmissing
  intro hc
  simp [checkState_entry hc hr] at hbit

/-- A missing entry is what the check reports when the masks of words are as the command needs them (R85). -/
theorem checkState_schedule (hk : needsKey i = true → s.keyv = 0b1111) (hd : needsData i = true → s.datav = 0b1111) :
    checkState i s = some .schedule := by
  rw [checkState_eq, if_neg (fun h => h.2 (hk h.1)), if_neg (fun h => h.2 (hd h.1)), if_pos hmissing]

end missingEntry

/-- The last of the four words makes the mask whole (10_state.md R22). -/
theorem markWord_of_others {m : BitVec 4} {c : Fin 4} (h : ∀ c' : Fin 4, c' ≠ c → m[c'.val] = true) :
    markWord m c = 0b1111 := by
  revert m c
  decide

/-- Settles O55: the write clears RKV, so an entry that the command needs is missing. -/
theorem keyWriteBlocksTheCommandsThatNeedTheSchedule : Obligations.KeyWriteBlocksTheCommandsThatNeedTheSchedule := by
  intro s c v i hwf hb hreads
  have hi : ReadsSchedule i := hreads
  rw [busWrite_of_key v s (region_key c), writeKey_of_idle c v hb]
  obtain ⟨r, hr⟩ := hi.exists_mem_needsEntries hwf
  have hmissing : ∃ r ∈ needsEntries i, (storeKey c v s).rkv.getLsbD r = false := ⟨r, hr, by simp⟩
  refine ⟨checkState_ne_none_of_missing hmissing, fun hdata hkey => checkState_schedule hmissing (fun hk => ?_)
    fun hd => hdata (ne_keyRound_of_needsData hd)⟩
  exact markWord_of_others (hkey (hi.of_needsKey hk))

end Sys2Proof.Machine
end
